-- ==== Sys2Proof/Word.lean ====
section
/-! DEFINITION. The word types of the core (00_scope.md rules R5, R7). -/

namespace Sys2Proof

/-- A `u64`: a general register, `pc`, an ALU operand or result, a data address (R5 `XLEN`, `ALEN`). -/
abbrev Word := BitVec 64

/-- One byte of data memory (10_state.md R24). -/
abbrev Byte := BitVec 8

/-- One instruction word (R5 `ILEN`, 30_encoding.md R50). -/
abbrev InstrWord := BitVec 32

/-- A register number, 0 to 31; 31 is XZR (10_state.md R11, R13; 93 U8: indices are typed so). -/
abbrev Reg := Fin 32

end Sys2Proof
end

