-- ==== Sys2Proof/Config.lean ====
section
/-! DEFINITION. The parameters of the core (00_scope.md rule R5, 10_state.md rule R26). -/

namespace Sys2Proof

/-- The parameters that are fixed for a run (R5, R26): `ALIGN_CHECK` and `HIST_MAX`. -/
structure Params where
  /-- `ALIGN_CHECK`: whether multi-byte data accesses require natural alignment (20_memory.md R36). -/
  alignCheck : Bool
  /-- `HIST_MAX`: capacity of the history ring, at least 1 (45_history_debug.md R162). -/
  histMax : Nat
  deriving DecidableEq, Repr

/-- `ALIGN_CHECK` of this hardware. The spec leaves it OPEN (92 D9), so it has no body and no proof
can know it: what holds of it holds for both values. -/
opaque Config.alignCheck : Bool

/-- `HIST_MAX` of this hardware: "configurable, default 50" (R5). -/
def Config.histMaxDefault : Nat := 50

/-- `PROG_MAX`: a program has fewer instructions than this (R5, 10_state.md R23, 92 D23). -/
def Config.progBound : Nat := 2 ^ 62

end Sys2Proof
end

