-- ==== Sys2Proof/Syntax.lean ====
section
/-! DEFINITION. Instructions as syntax: the eleven kinds, the five formats and the instructions with
their operands (00_scope.md R1, R9; 30_encoding.md R50 to R59). -/

namespace Sys2Proof

/-- The eleven instruction kinds (R1). -/
inductive Kind where
  | add | sub | and | orr | addi | subi | ldur | stur | b | cbz | cbnz
  deriving DecidableEq, Repr

/-- The five instruction formats (30_encoding.md R50). -/
inductive Format where
  | r | i | d | b | cb
  deriving DecidableEq, Repr

/-- An instruction with its operands. Register operands are numbers 0 to 31; an immediate is the
signed value of its field (R57), in the unit the field has: bytes for `ldur`, `stur` and `b`,
instructions for `cbz` and `cbnz`. -/
inductive Instr where
  /-- ADD Xd, Xn, Xm (41_arith_logic.md R100). -/
  | add (rd rn rm : Reg)
  /-- SUB Xd, Xn, Xm (R101). -/
  | sub (rd rn rm : Reg)
  /-- AND Xd, Xn, Xm (R102). -/
  | and (rd rn rm : Reg)
  /-- ORR Xd, Xn, Xm (R103). -/
  | orr (rd rn rm : Reg)
  /-- ADDI Xd, Xn, #imm (R104). -/
  | addi (rd rn : Reg) (imm : Int)
  /-- SUBI Xd, Xn, #imm (R105). -/
  | subi (rd rn : Reg) (imm : Int)
  /-- LDUR Xt, [Xn, #imm] (42_load_store.md R110). -/
  | ldur (rt rn : Reg) (imm : Int)
  /-- STUR Xt, [Xn, #imm] (R111). -/
  | stur (rt rn : Reg) (imm : Int)
  /-- B with a byte offset (43_branch.md R121). -/
  | b (offset : Int)
  /-- CBZ Xt with an instruction count (R122). -/
  | cbz (rt : Reg) (count : Int)
  /-- CBNZ Xt with an instruction count (R123). -/
  | cbnz (rt : Reg) (count : Int)
  deriving DecidableEq, Repr

/-- One row of the opcode map (30_encoding.md R60): the opcode stands in bits 31 down to `lo`. -/
structure OpcodeRow where
  kind : Kind
  lo : Nat
  opcode : Nat
  deriving DecidableEq, Repr

/-- Why a word is no admissible instruction word. -/
inductive DecodeError where
  /-- No row of the opcode map matches (30_encoding.md R65, 93 U1). -/
  | undefinedWord
  /-- A word of a known kind with a bit set that no field owns (R66, 93 U2). -/
  | reservedWord
  deriving DecidableEq, Repr

/-- The record the total field extraction returns (30_encoding.md R59); a field the format lacks is
absent, since it "has no defined value". -/
structure InstructionFields where
  opcode : Nat
  rd : Option Reg
  rs1 : Option Reg
  rs2 : Option Reg
  immediate : Option Int
  shamt : Option Nat
  format : Format
  deriving DecidableEq, Repr

end Sys2Proof
end

