-- ==== Sys2Proof/Machine/State.lean ====
section
/-! DEFINITION. The state of the core as plain data, its reset value, and the reasons a step stops
(10_state.md R10 to R29, 45_history_debug.md R161, R162, R168). -/

namespace Sys2Proof.Machine

/-- The six phases of one instruction (44_sequencer.md R130). -/
inductive Phase where
  | fetch | decode | execute | memory | writeBack | updatePC
  deriving DecidableEq, Repr

/-- `microStep`: the phase the most recent `step` performed, or Idle after reset (10_state.md R19). -/
inductive MicroStep where
  | idle
  | phase (p : Phase)
  deriving DecidableEq, Repr

/-- The four condition flags (R16). -/
structure Flags where
  n : Bool
  z : Bool
  c : Bool
  v : Bool
  deriving DecidableEq, Repr

/-- All four flags false. -/
def Flags.clear : Flags := { n := false, z := false, c := false, v := false }

/-- The ten control signals of the latch `ctrl` (R18). -/
structure ControlSignals where
  regWrite : Bool
  aluSrc : Bool
  memRead : Bool
  memWrite : Bool
  memToReg : Bool
  reg2Loc : Bool
  uncondBranch : Bool
  zeroBranch : Bool
  flagWrite : Bool
  pcSrc : Bool
  deriving DecidableEq, Repr

/-- All ten control signals false. -/
def ControlSignals.clear : ControlSignals :=
  { regWrite := false, aluSrc := false, memRead := false, memWrite := false, memToReg := false,
    reg2Loc := false, uncondBranch := false, zeroBranch := false, flagWrite := false, pcSrc := false }

/-- One place of the instruction store: `PROG[i]` and `srcLine[i]` (R23). -/
structure ProgEntry where
  word : InstrWord
  line : Nat
  deriving DecidableEq, Repr

/-- The general registers `X[0]` to `X[30]`; register 31 has no storage (R10, R11). -/
abbrev Regs := Vector Word 31

/-- Data memory: the bytes that are not 0, at strictly rising addresses. An unlisted address reads 0
(R24; "absent entries read as 0"), so equal memories (R29) are equal lists. -/
abbrev Memory := List Host.Cell

/-- The canonical form from address `lo` up: addresses rise strictly and no listed byte is 0. -/
def Memory.wfFrom : Nat → Memory → Bool
  | _, [] => true
  | lo, (a, b) :: m => decide (lo ≤ a) && (decide (b ≠ 0#8) && Memory.wfFrom (a + 1) m)

/-- The memory is in its canonical form. -/
def Memory.wf (m : Memory) : Bool := Memory.wfFrom 0 m

/-- Every listed address is one of the address space, 0 to 2^64 - 1 (20_memory.md R30). -/
def Memory.bounded (m : Memory) : Bool := m.all (fun cell => decide (cell.1 < 2 ^ 64))

/-- A snapshot: what the HistoryManager records of the engine after a phase (45_history_debug.md R161;
the fields R161 leaves out are out of scope by 00_scope.md R4). -/
structure Snapshot where
  microStep : MicroStep
  instructionIndex : Nat
  pc : Word
  flags : Flags
  aluResult : Option Word
  memData : Option Word
  regs : Regs
  mem : Memory
  ctrl : ControlSignals
  deriving DecidableEq, Repr

/-- Everything the spec gives the core. -/
structure State where
  /-- `X[0]` to `X[30]` (R10). -/
  regs : Regs
  /-- The byte address of the current instruction (R14). -/
  pc : Word
  /-- N, Z, C, V (R16). -/
  flags : Flags
  /-- `MEM` (R24). -/
  mem : Memory
  /-- The phase last performed (R19). -/
  microStep : MicroStep
  /-- The index into `PROG` of the instruction whose phases are being performed (R20). -/
  instructionIndex : Nat
  /-- The control-signal latch (R18). -/
  ctrl : ControlSignals
  /-- The ALU latch (R21). -/
  aluResult : Option Word
  /-- The load latch, the value part of `lastMemoryAccess` (R22). -/
  memData : Option Word
  /-- `PROG` with `srcLine` (R23). -/
  prog : List ProgEntry
  /-- The history ring, oldest first (R25, 45 R162). -/
  hist : List Snapshot
  /-- The cursor, `none` where `hist` is empty (45 R162). -/
  cur : Option Nat
  /-- The breakpoint set: strictly rising positive source lines (45 R168). -/
  bp : List Nat
  /-- `ALIGN_CHECK` and `HIST_MAX`; no operation of the core changes them (R26). -/
  params : Params
  deriving DecidableEq, Repr

/-- The two faults of the core (60_exceptions.md R180). Both are the spec's own; a fault stops the run
and commits nothing (R185). -/
inductive Fault where
  /-- Raised by the Memory phase of LDUR and STUR: misaligned under `ALIGN_CHECK`, or running past the
  top of the address space; carries the effective address (R182). Safe: the hardware stops too. -/
  | memoryAccessError (address : Word)
  /-- Raised by the UpdatePC phase: the new `pc` is negative, not below 2^64 or not a multiple of 4;
  carries that mathematical integer (R183). Safe: the hardware stops too. -/
  | invalidPCError (target : Int)
  deriving DecidableEq, Repr

/-- Why the model gives a step no meaning. All are safe: the model stops and claims nothing. -/
inductive Refusal where
  /-- An arm of `exec` without a meaning; none is left. Safe. -/
  | notModelled (mnemonic : String)
  /-- Raised by `step`: the selected word is of no kind (30_encoding.md R65, 93 U1: refuse). Safe. -/
  | undefinedWord
  /-- Raised by `step`: the selected word has a bit set that no field owns (R66, 93 U2: refuse). Safe. -/
  | reservedWord
  /-- Raised by `step` in the middle of an instruction whose index is outside the program, which no
  run reaches. Safe. -/
  | noInstruction
  /-- Raised by a Memory or WriteBack phase whose latch is absent, which no run reaches
  (44_sequencer.md R139: `aluResult` "is present here"). Safe. -/
  | latchAbsent
  deriving DecidableEq, Repr

/-- What a phase or a step answers. -/
abbrev Result := Host.Outcome State Fault Refusal

/-- The machine right after reset, before the first load (R27; 70_reset_and_hazards.md R200, R204).
`bp` is the model's choice (log entry 3); `params` are the parameters of R5. -/
def State.reset : State :=
  { regs := Vector.replicate 31 0#64
    pc := 0#64
    flags := Flags.clear
    mem := []
    microStep := .idle
    instructionIndex := 0
    ctrl := ControlSignals.clear
    aluResult := none
    memData := none
    prog := []
    hist := []
    cur := none
    bp := []
    params := { alignCheck := Config.alignCheck, histMax := Config.histMaxDefault } }

end Sys2Proof.Machine
end

