-- ==== Sys2Proof/Machine/ControlUnit.lean ====
section
/-! DEFINITION. The control-signal ROM (40_control_alu.md R80 to R84). -/

namespace Sys2Proof.Machine

/-- `decide(kind)`: the row of R82; FlagWrite and PCSrc are false for every kind (R83). -/
def controlSignals (k : Kind) : ControlSignals :=
  match k with
  | .add => { ControlSignals.clear with regWrite := true }
  | .sub => { ControlSignals.clear with regWrite := true }
  | .and => { ControlSignals.clear with regWrite := true }
  | .orr => { ControlSignals.clear with regWrite := true }
  | .addi => { ControlSignals.clear with regWrite := true, aluSrc := true }
  | .subi => { ControlSignals.clear with regWrite := true, aluSrc := true }
  | .ldur => { ControlSignals.clear with regWrite := true, aluSrc := true, memRead := true, memToReg := true }
  | .stur => { ControlSignals.clear with aluSrc := true, memWrite := true, reg2Loc := true }
  | .b => { ControlSignals.clear with uncondBranch := true }
  | .cbz => { ControlSignals.clear with zeroBranch := true }
  | .cbnz => { ControlSignals.clear with zeroBranch := true }

/-- CBZ and CBNZ, the kinds whose Execute phase commits the flags (44_sequencer.md R138). -/
def isComparison (k : Kind) : Bool := k == .cbz || k == .cbnz

end Sys2Proof.Machine
end

