-- ==== Sys2Proof/Machine/Flags.lean ====
section
/-! DEFINITION. The flag computation of the ALU and the ALU itself (40_control_alu.md R90 to R99). -/

namespace Sys2Proof.Machine

/-- The four operations of the ALU (R90). -/
inductive AluOp where
  | add | sub | and | orr
  deriving DecidableEq, Repr

/-- What `compute` answers (R90). -/
structure AluOutput where
  result : Word
  flags : Flags
  deriving DecidableEq, Repr

/-- The result: the low 64 bits of the sum or difference, or the bitwise operation (R91). -/
def aluValue (a b : Word) (op : AluOp) : Word :=
  match op with
  | .add => a + b
  | .sub => a - b
  | .and => a &&& b
  | .orr => a ||| b

/-- N: bit 63 of the result (R92). -/
def flagN (result : Word) : Bool := result.getLsbD 63

/-- Z: all 64 bits of the result are zero (R92). -/
def flagZ (result : Word) : Bool := result == 0#64

/-- `v[31:0]` as an unsigned integer (R93). -/
def low32 (v : Word) : Nat := v.toNat % 2 ^ 32

/-- C, on the low 32 bits of the operands (R93); false for AND and ORR (R95). -/
def flagC (a b : Word) (op : AluOp) : Bool :=
  match op with
  | .add => decide (low32 a + low32 b > 0xFFFFFFFF)
  | .sub => decide (low32 a ≥ low32 b)
  | .and => false
  | .orr => false

/-- V, the overflow test on bit 31 (R94); false for AND and ORR (R95). -/
def flagV (a b result : Word) (op : AluOp) : Bool :=
  match op with
  | .add => (a.getLsbD 31 == b.getLsbD 31) && (result.getLsbD 31 != a.getLsbD 31)
  | .sub => (a.getLsbD 31 != b.getLsbD 31) && (result.getLsbD 31 != a.getLsbD 31)
  | .and => false
  | .orr => false

/-- The four flags of an ALU operation (R92 to R95). -/
def aluFlags (a b : Word) (op : AluOp) : Flags :=
  { n := flagN (aluValue a b op), z := flagZ (aluValue a b op), c := flagC a b op,
    v := flagV a b (aluValue a b op) op }

/-- `compute(a, b, op)` (R90). -/
def compute (a b : Word) (op : AluOp) : AluOutput := { result := aluValue a b op, flags := aluFlags a b op }

end Sys2Proof.Machine
end

