-- ==== Sys2Proof/Machine/Ops.lean ====
section
/-! DEFINITION. The named operations over registers and data memory, the sequencer's phase numbers, and
raising a fault (10_state.md R11, 20_memory.md R31 to R37, 44_sequencer.md R132, 60_exceptions.md R185). -/

namespace Sys2Proof.Machine

/-! ## Registers -/

/-- `x[r]`: a read of a general register; register 31 reads 0 (10_state.md R11). -/
def State.readReg (s : State) (r : Reg) : Word := if h : r.val < 31 then s.regs[r.val] else 0#64

/-- `x[r] <- v` on the register file; register 31 ignores it (R11). -/
def Regs.write (regs : Regs) (r : Reg) (v : Word) : Regs := if h : r.val < 31 then regs.set r.val v else regs

/-- `x[r] <- v` (R11). -/
def State.writeReg (s : State) (r : Reg) (v : Word) : State := { s with regs := Regs.write s.regs r v }

/-! ## Data memory -/

/-- `readByte(a)`: 0 for an address never written (20_memory.md R31). -/
def Memory.readByte : Memory → Nat → Byte
  | [], _ => 0#8
  | (k, b) :: m, a => if k = a then b else Memory.readByte m a

/-- `writeByte(a, b)`, keeping the canonical form (R31). -/
def Memory.writeByte : Memory → Nat → Byte → Memory
  | [], a, b => if b = 0#8 then [] else [(a, b)]
  | (k, c) :: m, a, b =>
    if a < k then (if b = 0#8 then (k, c) :: m else (a, b) :: (k, c) :: m)
    else if a = k then (if b = 0#8 then m else (a, b) :: m)
    else (k, c) :: Memory.writeByte m a b

/-- The width of a data access (R32). -/
inductive AccessWidth where
  | byte | half | word | doubleword
  deriving DecidableEq, Repr

/-- The number of bytes of an access (R32; word and half from 00_scope.md R9). -/
def AccessWidth.bytes : AccessWidth → Nat
  | .byte => 1
  | .half => 2
  | .word => 4
  | .doubleword => 8

/-- The little-endian value of the `n` bytes from `a` (R33). -/
def Memory.readLE (m : Memory) (a : Nat) : Nat → Nat
  | 0 => 0
  | n + 1 => (m.readByte a).toNat + 256 * Memory.readLE m (a + 1) n

/-- The `n` low bytes of `v` written from `a`, least significant first (R34). -/
def Memory.writeLE (m : Memory) (a : Nat) : Nat → Nat → Memory
  | 0, _ => m
  | n + 1, v => Memory.writeLE (m.writeByte a (BitVec.ofNat 8 v)) (a + 1) n (v / 256)

/-- The access is misaligned and `ALIGN_CHECK` asks for alignment (R36). -/
def misaligned (alignCheck : Bool) (a : Word) (width : AccessWidth) : Bool :=
  decide (a.toNat % width.bytes ≠ 0) && alignCheck

/-- The access would pass the top of the address space (R37). -/
def outOfRange (a : Word) (width : AccessWidth) : Bool := decide (a.toNat + width.bytes - 1 > 2 ^ 64 - 1)

/-- The access is refused with `MemoryAccessError` (R36, R37; both report the same address, 60 R188). -/
def accessFaults (alignCheck : Bool) (a : Word) (width : AccessWidth) : Bool :=
  misaligned alignCheck a width || outOfRange a width

/-- `MemRead(a, n)` (R33): the value, or the fault. -/
def memRead (alignCheck : Bool) (m : Memory) (a : Word) (width : AccessWidth) : Except Fault Word :=
  if accessFaults alignCheck a width then .error (.memoryAccessError a)
  else .ok (BitVec.ofNat 64 (m.readLE a.toNat width.bytes))

/-- `MemWrite(a, n, v)` (R34): the memory after it, or the fault with no byte touched. -/
def memWrite (alignCheck : Bool) (m : Memory) (a : Word) (width : AccessWidth) (v : Word) : Except Fault Memory :=
  if accessFaults alignCheck a width then .error (.memoryAccessError a)
  else .ok (m.writeLE a.toNat width.bytes v.toNat)

/-! ## Phases -/

/-- The number of a phase, Fetch 0 to UpdatePC 5 (44_sequencer.md R130). -/
def Phase.number : Phase → Nat
  | .fetch => 0
  | .decode => 1
  | .execute => 2
  | .memory => 3
  | .writeBack => 4
  | .updatePC => 5

/-- The number of a `microStep` value; Idle is -1 (R130). -/
def MicroStep.number : MicroStep → Int
  | .idle => -1
  | .phase p => p.number

/-- `(microStep + 1) mod 6`: the phase the next `step` performs (R132). -/
def MicroStep.next : MicroStep → Phase
  | .idle => .fetch
  | .phase .fetch => .decode
  | .phase .decode => .execute
  | .phase .execute => .memory
  | .phase .memory => .writeBack
  | .phase .writeBack => .updatePC
  | .phase .updatePC => .fetch

/-- `microStep` is Idle or UpdatePC: the sequencer is at an instruction boundary (R133). -/
def MicroStep.boundary : MicroStep → Bool
  | .idle => true
  | .phase .updatePC => true
  | .phase .fetch => false
  | .phase .decode => false
  | .phase .execute => false
  | .phase .memory => false
  | .phase .writeBack => false

/-- The sequencer is at an instruction boundary (R133). -/
def State.atBoundary (s : State) : Bool := s.microStep.boundary

/-! ## Faults -/

/-- Raising a fault: the step ends with it and nothing it would have written is written. There is no
trap entry: nothing is saved, no mode or mask changes, control goes nowhere (60_exceptions.md R185,
R186). -/
def raise (f : Fault) : Result := .fault f

end Sys2Proof.Machine
end

