-- ==== Sys2Proof/Machine/Operands.lean ====
section
/-! DEFINITION. How operands are formed: immediates as 64-bit patterns, the effective address, the
branch offsets and targets (30_encoding.md R57, R58; 20_memory.md R48; 43_branch.md R120, R124). -/

namespace Sys2Proof.Machine

/-- `sext64` of an immediate field: its signed value as a 64-bit pattern (00_scope.md R7, 30 R57). -/
def immOperand (imm : Int) : Word := BitVec.ofInt 64 imm

/-- The effective address of LDUR and STUR: base plus byte offset, modulo 2^64 (20_memory.md R48). -/
def effectiveAddress (s : State) (rn : Reg) (imm : Int) : Word :=
  (compute (s.readReg rn) (immOperand imm) .add).result

/-- The byte offset of CBZ and CBNZ: four times the instruction count (43_branch.md R122). -/
def countToBytes (count : Int) : Int := 4 * count

/-- `t = pc + 4 + (shouldBranch ? offset : 0)` as a mathematical integer (43_branch.md R124). -/
def pcTarget (pc : Word) (shouldBranch : Bool) (offset : Int) : Int :=
  (pc.toNat : Int) + 4 + (if shouldBranch then offset else 0)

/-- `t` is a value `pc` can hold: 0 to 2^64 - 1 and a multiple of 4 (R124). -/
def validTarget (t : Int) : Bool := decide (0 ≤ t) && (decide (t < (2 : Int) ^ 64) && decide (t % 4 = 0))

end Sys2Proof.Machine
end

