-- ==== Sys2Proof/Machine/Phases.lean ====
section
/-! DEFINITION. What each phase does, as operations the instructions share (44_sequencer.md R135 to
R141). Each one is one phase of one call of `step`; it sets `microStep` to the phase performed (R132). -/

namespace Sys2Proof.Machine

/-- Fetch: the control signals are cleared, nothing else changes (R135, R136; `instructionIndex` is
written by `select`, R133). -/
def fetchPhase (s : State) : Result :=
  .next { s with ctrl := ControlSignals.clear, microStep := .phase .fetch }

/-- Decode: the control signals of the kind are latched (R137). -/
def decodePhase (k : Kind) (s : State) : Result :=
  .next { s with ctrl := controlSignals k, microStep := .phase .decode }

/-- Execute: the ALU result is latched; the flags are committed for CBZ and CBNZ, or where FlagWrite
is set (R138). -/
def executePhase (k : Kind) (op : AluOp) (a b : Word) (s : State) : Result :=
  .next { s with
    aluResult := some (compute a b op).result
    flags := if isComparison k || s.ctrl.flagWrite then (compute a b op).flags else s.flags
    microStep := .phase .execute }

/-- A phase in which the kind does nothing (R138 for B, R139, R140: "nothing"). -/
def emptyPhase (p : Phase) (s : State) : Result := .next { s with microStep := .phase p }

/-- Memory of LDUR: `memData <- MemRead(aluResult, 8)` (R139). -/
def loadPhase (s : State) : Result :=
  match s.aluResult with
  | none => .refused .latchAbsent
  | some a =>
    match memRead s.params.alignCheck s.mem a .doubleword with
    | .error f => raise f
    | .ok v => .next { s with memData := some v, microStep := .phase .memory }

/-- Memory of STUR: `MemWrite(aluResult, 8, x[rt])` (R139). -/
def storePhase (rt : Reg) (s : State) : Result :=
  match s.aluResult with
  | none => .refused .latchAbsent
  | some a =>
    match memWrite s.params.alignCheck s.mem a .doubleword (s.readReg rt) with
    | .error f => raise f
    | .ok m => .next { s with mem := m, microStep := .phase .memory }

/-- WriteBack of a latched value: `x[r] <- value` (R140). -/
def writeBackPhase (r : Reg) (latch : Option Word) (s : State) : Result :=
  match latch with
  | none => .refused .latchAbsent
  | some v => .next { s.writeReg r v with microStep := .phase .writeBack }

/-- UpdatePC: `pc <- pc + 4 + (shouldBranch ? offset : 0)` and `ctrl.PCSrc <- shouldBranch`, or
`InvalidPCError` (R141, 43_branch.md R124). -/
def updatePCPhase (shouldBranch : Bool) (offset : Int) (s : State) : Result :=
  if validTarget (pcTarget s.pc shouldBranch offset) then
    .next { s with
      pc := BitVec.ofInt 64 (pcTarget s.pc shouldBranch offset)
      ctrl := { s.ctrl with pcSrc := shouldBranch }
      microStep := .phase .updatePC }
  else raise (.invalidPCError (pcTarget s.pc shouldBranch offset))

end Sys2Proof.Machine
end

