-- ==== Sys2Proof/Machine/ArithLogic.lean ====
section
/-! DEFINITION. ADD, SUB, AND, ORR, ADDI, SUBI (41_arith_logic.md R100 to R106). A meaning performs
the next phase of its instruction. -/

namespace Sys2Proof.Machine

/-- The six instructions of this file: ALU of `a` and `b`, result to `rd`, no branch (R106). -/
def arithLogic (k : Kind) (op : AluOp) (rd : Reg) (a b : Word) (s : State) : Result :=
  match s.microStep.next with
  | .fetch => fetchPhase s
  | .decode => decodePhase k s
  | .execute => executePhase k op a b s
  | .memory => emptyPhase .memory s
  | .writeBack => writeBackPhase rd s.aluResult s
  | .updatePC => updatePCPhase false 0 s

/-- ADD Xd, Xn, Xm (R100). -/
def execAdd (rd rn rm : Reg) (s : State) : Result :=
  arithLogic .add .add rd (s.readReg rn) (s.readReg rm) s

/-- SUB Xd, Xn, Xm (R101). -/
def execSub (rd rn rm : Reg) (s : State) : Result :=
  arithLogic .sub .sub rd (s.readReg rn) (s.readReg rm) s

/-- AND Xd, Xn, Xm (R102). -/
def execAnd (rd rn rm : Reg) (s : State) : Result :=
  arithLogic .and .and rd (s.readReg rn) (s.readReg rm) s

/-- ORR Xd, Xn, Xm (R103). -/
def execOrr (rd rn rm : Reg) (s : State) : Result :=
  arithLogic .orr .orr rd (s.readReg rn) (s.readReg rm) s

/-- ADDI Xd, Xn, #imm (R104). -/
def execAddi (rd rn : Reg) (imm : Int) (s : State) : Result :=
  arithLogic .addi .add rd (s.readReg rn) (immOperand imm) s

/-- SUBI Xd, Xn, #imm (R105). -/
def execSubi (rd rn : Reg) (imm : Int) (s : State) : Result :=
  arithLogic .subi .sub rd (s.readReg rn) (immOperand imm) s

end Sys2Proof.Machine
end

