-- ==== Sys2Proof/Machine/Branch.lean ====
section
/-! DEFINITION. B, CBZ, CBNZ (43_branch.md R120 to R124). A meaning performs the next phase of its
instruction. -/

namespace Sys2Proof.Machine

/-- B with a byte offset: the ALU is not used, the branch is always taken (R121). -/
def execB (offset : Int) (s : State) : Result :=
  match s.microStep.next with
  | .fetch => fetchPhase s
  | .decode => decodePhase .b s
  | .execute => emptyPhase .execute s
  | .memory => emptyPhase .memory s
  | .writeBack => emptyPhase .writeBack s
  | .updatePC => updatePCPhase true offset s

/-- CBZ and CBNZ: compare `x[rt]` with 0 by a subtraction, branch by `count` instructions where
`shouldBranch` (R122, R123). -/
def compareBranch (k : Kind) (rt : Reg) (shouldBranch : Bool) (count : Int) (s : State) : Result :=
  match s.microStep.next with
  | .fetch => fetchPhase s
  | .decode => decodePhase k s
  | .execute => executePhase k .sub (s.readReg rt) 0#64 s
  | .memory => emptyPhase .memory s
  | .writeBack => emptyPhase .writeBack s
  | .updatePC => updatePCPhase shouldBranch (countToBytes count) s

/-- CBZ Xt, #count (R122). -/
def execCbz (rt : Reg) (count : Int) (s : State) : Result :=
  compareBranch .cbz rt (s.readReg rt == 0#64) count s

/-- CBNZ Xt, #count (R123). -/
def execCbnz (rt : Reg) (count : Int) (s : State) : Result :=
  compareBranch .cbnz rt (s.readReg rt != 0#64) count s

end Sys2Proof.Machine
end

