-- ==== Sys2Proof/Machine/LoadStore.lean ====
section
/-! DEFINITION. LDUR and STUR (42_load_store.md R110 to R112). A meaning performs the next phase of
its instruction. -/

namespace Sys2Proof.Machine

/-- LDUR Xt, [Xn, #imm] (R110). -/
def execLdur (rt rn : Reg) (imm : Int) (s : State) : Result :=
  match s.microStep.next with
  | .fetch => fetchPhase s
  | .decode => decodePhase .ldur s
  | .execute => executePhase .ldur .add (s.readReg rn) (immOperand imm) s
  | .memory => loadPhase s
  | .writeBack => writeBackPhase rt s.memData s
  | .updatePC => updatePCPhase false 0 s

/-- STUR Xt, [Xn, #imm] (R111). -/
def execStur (rt rn : Reg) (imm : Int) (s : State) : Result :=
  match s.microStep.next with
  | .fetch => fetchPhase s
  | .decode => decodePhase .stur s
  | .execute => executePhase .stur .add (s.readReg rn) (immOperand imm) s
  | .memory => storePhase rt s
  | .writeBack => emptyPhase .writeBack s
  | .updatePC => updatePCPhase false 0 s

end Sys2Proof.Machine
end

