-- ==== Sys2Proof/Machine/Dispatch.lean ====
section
/-! DEFINITION. exec: the next phase of an instruction, one arm per constructor. -/

namespace Sys2Proof.Machine

def exec (i : Instr) (s : State) : Host.Outcome State Fault Refusal :=
  match i with
  | .add rd rn rm => Sys2Proof.Machine.execAdd rd rn rm s
  | .sub rd rn rm => Sys2Proof.Machine.execSub rd rn rm s
  | .and rd rn rm => Sys2Proof.Machine.execAnd rd rn rm s
  | .orr rd rn rm => Sys2Proof.Machine.execOrr rd rn rm s
  | .addi rd rn imm => Sys2Proof.Machine.execAddi rd rn imm s
  | .subi rd rn imm => Sys2Proof.Machine.execSubi rd rn imm s
  | .ldur rt rn imm => Sys2Proof.Machine.execLdur rt rn imm s
  | .stur rt rn imm => Sys2Proof.Machine.execStur rt rn imm s
  | .b offset => Sys2Proof.Machine.execB offset s
  | .cbz rt count => Sys2Proof.Machine.execCbz rt count s
  | .cbnz rt count => Sys2Proof.Machine.execCbnz rt count s

end Sys2Proof.Machine
end

