-- ==== Sys2Proof/WellFormed.lean ====
section
/-! DEFINITION. Which instructions the encoding can hold: every immediate in the signed range of its
field (30_encoding.md R53 to R56, R62). Register numbers are in range by their type. -/

namespace Sys2Proof

/-- `v` is in the range of an `n`-bit two's-complement field, -2^(n-1) to 2^(n-1) - 1. -/
def fitsSigned (n : Nat) (v : Int) : Bool :=
  decide (-(2 : Int) ^ (n - 1) ≤ v) && decide (v < (2 : Int) ^ (n - 1))

/-- The field values of R62 are in range. -/
def Instr.wellFormed : Instr → Bool
  | .add _ _ _ => true
  | .sub _ _ _ => true
  | .and _ _ _ => true
  | .orr _ _ _ => true
  | .addi _ _ imm => fitsSigned 12 imm
  | .subi _ _ imm => fitsSigned 12 imm
  | .ldur _ _ imm => fitsSigned 9 imm
  | .stur _ _ imm => fitsSigned 9 imm
  | .b offset => fitsSigned 26 offset
  | .cbz _ count => fitsSigned 19 count
  | .cbnz _ count => fitsSigned 19 count

end Sys2Proof
end

