-- ==== Sys2Proof/Decode.lean ====
section
/-! DEFINITION. The Codec: the opcode map, the decoder of 32-bit words (total, rejecting by name), the
total field extraction for display, and the encoder (30_encoding.md R50 to R66). -/

namespace Sys2Proof

/-! ## Kinds and formats -/

/-- The kind of an instruction. -/
def Instr.kind : Instr → Kind
  | .add _ _ _ => .add
  | .sub _ _ _ => .sub
  | .and _ _ _ => .and
  | .orr _ _ _ => .orr
  | .addi _ _ _ => .addi
  | .subi _ _ _ => .subi
  | .ldur _ _ _ => .ldur
  | .stur _ _ _ => .stur
  | .b _ => .b
  | .cbz _ _ => .cbz
  | .cbnz _ _ => .cbnz

/-- The format of a kind (R51). -/
def Kind.format : Kind → Format
  | .add => .r
  | .sub => .r
  | .and => .r
  | .orr => .r
  | .addi => .i
  | .subi => .i
  | .ldur => .d
  | .stur => .d
  | .b => .b
  | .cbz => .cb
  | .cbnz => .cb

/-- The lowest bit of the opcode field; its highest is 31 (R52 to R56). -/
def Format.opcodeLo : Format → Nat
  | .r => 21
  | .i => 22
  | .d => 21
  | .b => 26
  | .cb => 24

/-- The opcode constants (R60, "opcode (hex)"). -/
def Kind.opcode : Kind → Nat
  | .add => 0x458
  | .sub => 0x658
  | .and => 0x450
  | .orr => 0x550
  | .addi => 0x244
  | .subi => 0x344
  | .ldur => 0x7C2
  | .stur => 0x7C0
  | .b => 0x05
  | .cbz => 0xB4
  | .cbnz => 0xB5

/-- The row of the opcode map for a kind (R60). -/
def opcodeRow (k : Kind) : OpcodeRow :=
  { kind := k, lo := k.format.opcodeLo, opcode := k.opcode }

/-- The opcode map (R60). -/
def opcodeTable : List OpcodeRow :=
  [opcodeRow .add, opcodeRow .sub, opcodeRow .and, opcodeRow .orr, opcodeRow .addi, opcodeRow .subi,
    opcodeRow .ldur, opcodeRow .stur, opcodeRow .b, opcodeRow .cbz, opcodeRow .cbnz]

/-- R60's `match` column: the opcode at its bit position, every other bit 0. -/
def OpcodeRow.matchBits (row : OpcodeRow) : InstrWord := BitVec.ofNat 32 (row.opcode * 2 ^ row.lo)

/-- R60's `mask` column: a 1 at every opcode bit. -/
def OpcodeRow.maskBits (row : OpcodeRow) : InstrWord := BitVec.ofNat 32 (2 ^ 32 - 2 ^ row.lo)

/-! ## Fields -/

/-- `w[hi:lo]` as an unsigned integer (00_scope.md R7). -/
def bitField (w : InstrWord) (hi lo : Nat) : Nat := w.toNat / 2 ^ lo % 2 ^ (hi + 1 - lo)

/-- `sext_n(v)`: the signed value of an `n`-bit field value (00_scope.md R7, 30_encoding.md R57). -/
def signExtend (n v : Nat) : Int := if v < 2 ^ (n - 1) then (v : Int) else (v : Int) - (2 : Int) ^ n

/-- The 5-bit register field whose lowest bit is `lo`. -/
def regField (w : InstrWord) (lo : Nat) : Reg := Fin.ofNat 32 (bitField w (lo + 4) lo)

/-- Bits [4:0]: `rd` in formats R and I, `rt` in formats D and CB (R52 to R56). -/
def rdField (w : InstrWord) : Reg := regField w 0

/-- Bits [9:5], `rn`. -/
def rnField (w : InstrWord) : Reg := regField w 5

/-- Bits [20:16], `rm`. -/
def rmField (w : InstrWord) : Reg := regField w 16

/-- Bits [15:10], `shamt` (R52). -/
def shamtField (w : InstrWord) : Nat := bitField w 15 10

/-- Bits [21:10] sign-extended (R53). -/
def imm12Field (w : InstrWord) : Int := signExtend 12 (bitField w 21 10)

/-- Bits [20:12] sign-extended (R54). -/
def imm9Field (w : InstrWord) : Int := signExtend 9 (bitField w 20 12)

/-- Bits [25:0] sign-extended: a byte offset (R55). -/
def imm26Field (w : InstrWord) : Int := signExtend 26 (bitField w 25 0)

/-- Bits [23:5] sign-extended: an instruction count (R56). -/
def imm19Field (w : InstrWord) : Int := signExtend 19 (bitField w 23 5)

/-- `fields(w, fmt)`: the total field extraction for display (R59). -/
def fields (w : InstrWord) (fmt : Format) : InstructionFields :=
  match fmt with
  | .r =>
    { opcode := bitField w 31 21, rd := some (rdField w), rs1 := some (rnField w),
      rs2 := some (rmField w), immediate := none, shamt := some (shamtField w), format := .r }
  | .i =>
    { opcode := bitField w 31 22, rd := some (rdField w), rs1 := some (rnField w),
      rs2 := none, immediate := some (imm12Field w), shamt := none, format := .i }
  | .d =>
    { opcode := bitField w 31 21, rd := some (rdField w), rs1 := some (rnField w),
      rs2 := none, immediate := some (imm9Field w), shamt := none, format := .d }
  | .b =>
    { opcode := bitField w 31 26, rd := none, rs1 := none,
      rs2 := none, immediate := some (imm26Field w), shamt := none, format := .b }
  | .cb =>
    { opcode := bitField w 31 24, rd := some (rdField w), rs1 := none,
      rs2 := none, immediate := some (imm19Field w), shamt := none, format := .cb }

/-! ## Decoding -/

/-- The opcode bits of `w` read as the row's opcode (R61: `w[31:lo]` equals it). -/
def OpcodeRow.matchesWord (row : OpcodeRow) (w : InstrWord) : Bool := w.toNat / 2 ^ row.lo == row.opcode

/-- `kindOf(w)`; `none` where no row matches (R61). -/
def kindOf (w : InstrWord) : Option Kind := (opcodeTable.find? (fun row => row.matchesWord w)).map (·.kind)

/-- The value of the bits no field owns, `shamt` included: R format [15:10], D format [11:10] (R66). -/
def unownedBits (fmt : Format) (w : InstrWord) : Nat :=
  match fmt with
  | .r => bitField w 15 10
  | .d => bitField w 11 10
  | .i => 0
  | .b => 0
  | .cb => 0

/-- The instruction of kind `k` whose operands are the fields of `w` (R58). -/
def instrOf (k : Kind) (w : InstrWord) : Instr :=
  match k with
  | .add => .add (rdField w) (rnField w) (rmField w)
  | .sub => .sub (rdField w) (rnField w) (rmField w)
  | .and => .and (rdField w) (rnField w) (rmField w)
  | .orr => .orr (rdField w) (rnField w) (rmField w)
  | .addi => .addi (rdField w) (rnField w) (imm12Field w)
  | .subi => .subi (rdField w) (rnField w) (imm12Field w)
  | .ldur => .ldur (rdField w) (rnField w) (imm9Field w)
  | .stur => .stur (rdField w) (rnField w) (imm9Field w)
  | .b => .b (imm26Field w)
  | .cbz => .cbz (rdField w) (imm19Field w)
  | .cbnz => .cbnz (rdField w) (imm19Field w)

/-- The decoder: a canonical word gives its instruction, any other word is rejected by name
(R61, R65, R66; 93 U1, U2). -/
def decode (w : InstrWord) : Except DecodeError Instr :=
  match kindOf w with
  | none => .error .undefinedWord
  | some k => if unownedBits k.format w = 0 then .ok (instrOf k w) else .error .reservedWord

/-- The instruction the decoder reads from a word numbered as the opcode table numbers it. The
instruction store holds whole words and has no byte order (20_memory.md R45). No instruction is
longer than 32 bits (R50). -/
def decodeTableWord (nbits w : Nat) : Option Instr :=
  if nbits ≤ 32 then
    match decode (BitVec.ofNat 32 (w % 2 ^ nbits)) with
    | .ok i => some i
    | .error _ => none
  else none

/-! ## Encoding -/

/-- `imm mod 2^n`, the two's-complement pattern of an immediate (R62). -/
def immPattern (n : Nat) (imm : Int) : Nat := (imm % (2 : Int) ^ n).toNat

/-- R format (R62); `shamt` is encoded as 0 (92 D27). -/
def encodeR (k : Kind) (rd rn rm : Reg) : Nat :=
  k.opcode * 2 ^ 21 + rm.val * 2 ^ 16 + 0 * 2 ^ 10 + rn.val * 2 ^ 5 + rd.val

/-- I format (R62). -/
def encodeI (k : Kind) (rd rn : Reg) (imm : Int) : Nat :=
  k.opcode * 2 ^ 22 + immPattern 12 imm * 2 ^ 10 + rn.val * 2 ^ 5 + rd.val

/-- D format (R62); bits [11:10] are encoded as 0 (92 D15). -/
def encodeD (k : Kind) (rt rn : Reg) (imm : Int) : Nat :=
  k.opcode * 2 ^ 21 + immPattern 9 imm * 2 ^ 12 + 0 * 2 ^ 10 + rn.val * 2 ^ 5 + rt.val

/-- B format (R62). -/
def encodeB (k : Kind) (offset : Int) : Nat := k.opcode * 2 ^ 26 + immPattern 26 offset

/-- CB format (R62). -/
def encodeCB (k : Kind) (rt : Reg) (count : Int) : Nat :=
  k.opcode * 2 ^ 24 + immPattern 19 count * 2 ^ 5 + rt.val

/-- The word of an instruction, as a number below 2^32 (R62). -/
def encodeNat : Instr → Nat
  | .add rd rn rm => encodeR .add rd rn rm
  | .sub rd rn rm => encodeR .sub rd rn rm
  | .and rd rn rm => encodeR .and rd rn rm
  | .orr rd rn rm => encodeR .orr rd rn rm
  | .addi rd rn imm => encodeI .addi rd rn imm
  | .subi rd rn imm => encodeI .subi rd rn imm
  | .ldur rt rn imm => encodeD .ldur rt rn imm
  | .stur rt rn imm => encodeD .stur rt rn imm
  | .b offset => encodeB .b offset
  | .cbz rt count => encodeCB .cbz rt count
  | .cbnz rt count => encodeCB .cbnz rt count

/-- `encode`: the word of a well-formed instruction (R62). -/
def encode (i : Instr) : InstrWord := BitVec.ofNat 32 (encodeNat i)

end Sys2Proof
end

