-- ==== Sys2Proof/Machine/History.lean ====
section
/-! DEFINITION. The HistoryManager: snapshots, the ring, undo and redo (45_history_debug.md R160 to
R175). -/

namespace Sys2Proof.Machine

/-- The snapshot of the engine's present state, by value (R161, R172). -/
def State.snapshot (s : State) : Snapshot :=
  { microStep := s.microStep, instructionIndex := s.instructionIndex, pc := s.pc, flags := s.flags,
    aluResult := s.aluResult, memData := s.memData, regs := s.regs, mem := s.mem, ctrl := s.ctrl }

/-- `restore(s)`: the engine takes the values of the snapshot; the program, the breakpoints, the
history and the parameters are not touched (R167). -/
def State.restore (s : State) (e : Snapshot) : State :=
  { s with
    microStep := e.microStep, instructionIndex := e.instructionIndex, pc := e.pc, flags := e.flags,
    aluResult := e.aluResult, memData := e.memData, regs := e.regs, mem := e.mem, ctrl := e.ctrl }

/-- The entries up to and including the cursor: recording drops the redo tail (R163). -/
def keptHistory (hist : List Snapshot) (cur : Option Nat) : List Snapshot :=
  match cur with
  | none => hist
  | some c => hist.take (c + 1)

/-- Appending to the ring evicts its oldest entry past the bound (R163). -/
def appendBounded (histMax : Nat) (hist : List Snapshot) (e : Snapshot) : List Snapshot :=
  if (hist ++ [e]).length > histMax then (hist ++ [e]).drop 1 else hist ++ [e]

/-- The cursor at the tail, undefined for an empty ring (R162). -/
def tailCursor (hist : List Snapshot) : Option Nat := if hist.length = 0 then none else some (hist.length - 1)

/-- `record(snapshot(current state))` (R163). -/
def record (s : State) : State :=
  let h := appendBounded s.params.histMax (keptHistory s.hist s.cur) s.snapshot
  { s with hist := h, cur := tailCursor h }

/-- Moves the cursor to `c` and restores the snapshot there; `none` and no change where there is none. -/
def moveCursor (s : State) (c : Nat) : Option Snapshot × State :=
  match s.hist[c]? with
  | none => (none, s)
  | some e => (some e, { s.restore e with cur := some c })

/-- `undo()` (R164). -/
def undo (s : State) : Option Snapshot × State :=
  match s.cur with
  | none => (none, s)
  | some 0 => (none, s)
  | some (c + 1) => moveCursor s c

/-- `redo()` (R165). -/
def redo (s : State) : Option Snapshot × State :=
  match s.cur with
  | none => (none, s)
  | some c => moveCursor s (c + 1)

/-- The snapshot was recorded by the Fetch phase of instruction `i` (R166). -/
def startsInstruction (i : Nat) (e : Snapshot) : Bool :=
  e.instructionIndex == i && e.microStep == .phase .fetch

/-- The greatest `j` below `n` whose snapshot starts instruction `i` (R166's `max(J)`). -/
def lastStart (hist : List Snapshot) (i : Nat) : Nat → Option Nat
  | 0 => none
  | n + 1 =>
    match hist[n]? with
    | none => lastStart hist i n
    | some e => if startsInstruction i e then some n else lastStart hist i n

/-- `undoToInstructionStart(i)` (R166). -/
def undoToInstructionStart (i : Nat) (s : State) : Option Snapshot × State :=
  match s.cur with
  | none => (none, s)
  | some c =>
    match lastStart s.hist i (c + 1) with
    | none => (none, s)
    | some j => moveCursor s j

end Sys2Proof.Machine
end

