-- ==== Sys2Proof/Machine/Sequencer.lean ====
section
/-! DEFINITION. Which instruction a call of `step` works on (44_sequencer.md R132, R133, R145, R146). -/

namespace Sys2Proof.Machine

/-- What a call of `step` finds to do. -/
inductive Selection where
  /-- The run is complete: nothing to do (R146). -/
  | completed
  /-- The selected word is no admissible instruction. -/
  | refuse (r : Refusal)
  /-- Perform the next phase of the instruction on the state, whose `instructionIndex` is written. -/
  | perform (i : Instr) (s : State)
  deriving DecidableEq, Repr

/-- The index into `PROG`: `pc / 4` at a boundary, else the one of the running instruction (R133). -/
def State.fetchIndex (s : State) : Nat := if s.atBoundary then s.pc.toNat / 4 else s.instructionIndex

/-- Completion: at a boundary with `pc / 4 >= N` (R146). -/
def State.completed (s : State) : Bool := s.atBoundary && decide (s.pc.toNat / 4 ≥ s.prog.length)

/-- The refusal for a word the decoder rejects (30_encoding.md R65, R66). -/
def refusalOf : DecodeError → Refusal
  | .undefinedWord => .undefinedWord
  | .reservedWord => .reservedWord

/-- Selects the instruction of this call of `step` (R145). -/
def select (s : State) : Selection :=
  if s.completed then .completed
  else
    match s.prog[s.fetchIndex]? with
    | none => .refuse .noInstruction
    | some e =>
      match decode e.word with
      | .error err => .refuse (refusalOf err)
      | .ok i => .perform i { s with instructionIndex := s.fetchIndex }

/-- After a phase that was performed, the snapshot of the new state is recorded; a fault records
nothing (R142). -/
def recordNext (r : Result) : Result :=
  match r with
  | .next t => .next (record t)
  | .fault f => .fault f
  | .refused e => .refused e

/-- The no-operation `ADD XZR, XZR, XZR` (30_encoding.md R67), at a source line. -/
def noOperationEntry (line : Nat) : ProgEntry := { word := 0x8B1F03FF#32, line := line }

/-- `prog` with `word` at index `k`; a program that does not reach there is filled with
no-operations. -/
def placeWord (word : InstrWord) : Nat → List ProgEntry → List ProgEntry
  | 0, [] => [{ word := word, line := 1 }]
  | 0, e :: rest => { e with word := word } :: rest
  | k + 1, [] => noOperationEntry 1 :: placeWord word k []
  | k + 1, e :: rest => e :: placeWord word k rest

end Sys2Proof.Machine
end

