-- ==== Sys2Proof/Machine/Step.lean ====
section
/-! DEFINITION. One call of `step()`: one phase of one instruction (44_sequencer.md R131, R145). -/

namespace Sys2Proof.Machine

/-- `step()` (R145). Completed changes nothing and answers the same state (R146, log entry 2). -/
def step (s : State) : Host.Outcome State Fault Refusal :=
  match select s with
  | .completed => .next s
  | .refuse r => .refused r
  | .perform i t => recordNext (exec i t)

/-- `s` with the word `w` in the instruction store where `step` selects its next instruction. -/
def State.withFetchWord (s : State) (nbits w : Nat) : State :=
  { s with prog := placeWord (BitVec.ofNat 32 (w % 2 ^ nbits)) s.fetchIndex s.prog }

end Sys2Proof.Machine
end

