-- ==== Sys2Proof/Machine/Assembler.lean ====
section
/-! DEFINITION. The assembler: source text to program words with their source lines (30_encoding.md R70
to R77). Text is a list of characters. Where the spec shows no form, the form is refused (92 D26; log
entry 6). -/

namespace Sys2Proof.Machine

/-- Source text. -/
abbrev SourceText := List Char

/-- The reasons of an assembly error (R77; the range reason is R75's). -/
inductive AsmReason where
  /-- The first token is none of the eleven mnemonics (R71). -/
  | malformedMnemonic
  /-- The number of operands is not the format's, which is carried (R72; for the D format log entry 19). -/
  | wrongOperandCount (required : Nat)
  /-- A token that is none of the 32 register names (R73). -/
  | invalidRegister
  /-- A token that is no decimal literal (R74). -/
  | invalidImmediate
  /-- An immediate that does not fit its field (R75). -/
  | immediateOutOfRange
  /-- D format without well-placed brackets (R72). -/
  | missingBracket
  deriving DecidableEq, Repr

/-- The text of a reason (R77). "3 operands" is R72's message for the R format; the message of a wrong
operand count in the other formats (3 for I and D, 2 for CB, 1 for B) is a DESIGN CHOICE (log entry 19). -/
def AsmReason.message : AsmReason → String
  | .malformedMnemonic => "malformed mnemonic"
  | .wrongOperandCount 1 => "1 operand required"
  | .wrongOperandCount 2 => "2 operands required"
  | .wrongOperandCount 3 => "3 operands required"
  | .wrongOperandCount _ => "wrong operand count"
  | .invalidRegister => "invalid register token"
  | .invalidImmediate => "invalid immediate token"
  | .immediateOutOfRange => "invalid immediate"
  | .missingBracket => "missing bracket"

/-- `AssemblyError`: the 1-based line, its text, the reason (R77). -/
structure AssemblyError where
  line : Nat
  content : SourceText
  reason : AsmReason
  deriving DecidableEq, Repr

/-! ## Characters and tokens -/

/-- White space inside a line. -/
def isBlank (c : Char) : Bool := c == ' ' || (c == '\t' || c == '\r')

/-- The parts of a text between occurrences of `sep`. -/
def splitAt (sep : Char) : SourceText → List SourceText
  | [] => [[]]
  | c :: cs =>
    match splitAt sep cs with
    | [] => [[c]]
    | part :: parts => if c = sep then [] :: part :: parts else (c :: part) :: parts

/-- The text before the first `//` (R70). -/
def stripComment : SourceText → SourceText
  | [] => []
  | c :: cs => if c == '/' && cs.head? == some '/' then [] else c :: stripComment cs

/-- A text without white space at its ends. -/
def trim (t : SourceText) : SourceText := ((t.dropWhile isBlank).reverse.dropWhile isBlank).reverse

/-- The value of a decimal digit. -/
def digitValue (c : Char) : Option Nat :=
  if '0'.toNat ≤ c.toNat ∧ c.toNat ≤ '9'.toNat then some (c.toNat - '0'.toNat) else none

/-- The value of a run of decimal digits read after `acc`. -/
def decimalFrom (acc : Nat) : SourceText → Option Nat
  | [] => some acc
  | c :: cs =>
    match digitValue c with
    | none => none
    | some d => decimalFrom (10 * acc + d) cs

/-- A non-empty run of decimal digits. -/
def decimal (t : SourceText) : Option Nat := if t.isEmpty then none else decimalFrom 0 t

/-- The decimal digit character of a number below 10. -/
def digitChar (n : Nat) : Char := Char.ofNat ('0'.toNat + n)

/-- The name of a register: `X0` to `X30`, `XZR` (10_state.md R12). -/
def registerName (r : Reg) : SourceText :=
  if r.val = 31 then ['X', 'Z', 'R']
  else if r.val < 10 then ['X', digitChar r.val]
  else ['X', digitChar (r.val / 10), digitChar (r.val % 10)]

/-- A register token: exactly one of the 32 names (R73). -/
def parseRegister (t : SourceText) : Except AsmReason Reg :=
  match (List.finRange 32).find? (fun r => registerName r == t) with
  | none => .error .invalidRegister
  | some r => .ok r

/-- The text after an optional leading `#`. -/
def dropHash (t : SourceText) : SourceText := if t.head? == some '#' then t.drop 1 else t

/-- An immediate token: optional `#`, optional `-`, decimal digits (R74). -/
def parseImmediate (t : SourceText) : Except AsmReason Int :=
  let body := dropHash t
  let negative := body.head? == some '-'
  match decimal (if negative then body.drop 1 else body) with
  | none => .error .invalidImmediate
  | some n => .ok (if negative then -(n : Int) else (n : Int))

/-- An immediate that must fit an `n`-bit field after multiplication by `scale` (R75, R76). -/
def parseField (n : Nat) (scale : Int) (t : SourceText) : Except AsmReason Int :=
  match parseImmediate t with
  | .error e => .error e
  | .ok k => if fitsSigned n (scale * k) then .ok (scale * k) else .error .immediateOutOfRange

/-- The comma-separated operands of a text; no operand for a blank one (R70). -/
def operands (t : SourceText) : List SourceText :=
  if (trim t).isEmpty then [] else (splitAt ',' t).map trim

/-! ## The five parsers (R72) -/

/-- `Rd, Rn, Rm`. -/
def parseR (mk : Reg → Reg → Reg → Instr) (t : SourceText) : Except AsmReason Instr :=
  match operands t with
  | [d, n, m] => do
    let rd ← parseRegister d
    let rn ← parseRegister n
    let rm ← parseRegister m
    .ok (mk rd rn rm)
  | _ => .error (.wrongOperandCount 3)

/-- `Rd, Rn, #imm`. -/
def parseI (mk : Reg → Reg → Int → Instr) (t : SourceText) : Except AsmReason Instr :=
  match operands t with
  | [d, n, k] => do
    let rd ← parseRegister d
    let rn ← parseRegister n
    let imm ← parseField 12 1 k
    .ok (mk rd rn imm)
  | _ => .error (.wrongOperandCount 3)

/-- `Rt, [Rn, #imm]`: the brackets are located explicitly. DESIGN CHOICE: white space is allowed next to
and inside the brackets and trimmed (91 N15; log entry 18), a wrong number of operands reports 3 (log
entry 19), and text after the closing bracket reports a missing bracket (log entry 6). -/
def parseD (mk : Reg → Reg → Int → Instr) (t : SourceText) : Except AsmReason Instr :=
  let before := t.takeWhile (· != '[')
  let inside := (t.dropWhile (· != '[')).drop 1
  let address := inside.takeWhile (· != ']')
  let after := inside.dropWhile (· != ']')
  if after.isEmpty || !(trim (after.drop 1)).isEmpty then .error .missingBracket
  else
    match (splitAt ',' before).map trim, operands address with
    | [d, []], [n, k] => do
      let rt ← parseRegister d
      let rn ← parseRegister n
      let imm ← parseField 9 1 k
      .ok (mk rt rn imm)
    | _, _ => .error (.wrongOperandCount 3)

/-- One signed literal, an instruction count made a byte offset at once (R76). -/
def parseB (t : SourceText) : Except AsmReason Instr :=
  match operands t with
  | [k] => do
    let offset ← parseField 26 4 k
    .ok (.b offset)
  | _ => .error (.wrongOperandCount 1)

/-- `Rt, #offset`, an instruction count kept as it is (R76). -/
def parseCB (mk : Reg → Int → Instr) (t : SourceText) : Except AsmReason Instr :=
  match operands t with
  | [r, k] => do
    let rt ← parseRegister r
    let count ← parseField 19 1 k
    .ok (mk rt count)
  | _ => .error (.wrongOperandCount 2)

/-! ## Lines and programs -/

/-- The spelling of a mnemonic (R71). -/
def mnemonicText : Kind → SourceText
  | .add => ['A', 'D', 'D']
  | .sub => ['S', 'U', 'B']
  | .and => ['A', 'N', 'D']
  | .orr => ['O', 'R', 'R']
  | .addi => ['A', 'D', 'D', 'I']
  | .subi => ['S', 'U', 'B', 'I']
  | .ldur => ['L', 'D', 'U', 'R']
  | .stur => ['S', 'T', 'U', 'R']
  | .b => ['B']
  | .cbz => ['C', 'B', 'Z']
  | .cbnz => ['C', 'B', 'N', 'Z']

/-- The kind a token names, in capital or small letters (R70, R71). -/
def kindOfMnemonic (t : SourceText) : Option Kind :=
  (opcodeTable.find? (fun row => mnemonicText row.kind == t.map Char.toUpper)).map (·.kind)

/-- The parser of a kind's operands (R72). -/
def parseOperands (k : Kind) (t : SourceText) : Except AsmReason Instr :=
  match k with
  | .add => parseR .add t
  | .sub => parseR .sub t
  | .and => parseR .and t
  | .orr => parseR .orr t
  | .addi => parseI .addi t
  | .subi => parseI .subi t
  | .ldur => parseD .ldur t
  | .stur => parseD .stur t
  | .b => parseB t
  | .cbz => parseCB .cbz t
  | .cbnz => parseCB .cbnz t

/-- The instruction of a line, `none` for a blank or comment line (R70). -/
def parseLine (raw : SourceText) : Except AsmReason (Option Instr) :=
  let body := trim (stripComment raw)
  if body.isEmpty then .ok none
  else
    match kindOfMnemonic (body.takeWhile (fun c => !isBlank c)) with
    | none => .error .malformedMnemonic
    | some k =>
      match parseOperands k (body.dropWhile (fun c => !isBlank c)) with
      | .error e => .error e
      | .ok i => .ok (some i)

/-- The program of a list of lines numbered from `line`; fails on the first malformed line (R70, R77). -/
def assembleLines (line : Nat) : List SourceText → Except AssemblyError (List ProgEntry)
  | [] => .ok []
  | raw :: rest =>
    match parseLine raw with
    | .error reason => .error { line := line, content := raw, reason := reason }
    | .ok none => assembleLines (line + 1) rest
    | .ok (some i) =>
      match assembleLines (line + 1) rest with
      | .error e => .error e
      | .ok entries => .ok ({ word := encode i, line := line } :: entries)

/-- `assemble(text)` (R70, R77). -/
def assemble (text : SourceText) : Except AssemblyError (List ProgEntry) := assembleLines 1 (splitAt '\n' text)

end Sys2Proof.Machine
end

