-- ==== Sys2Proof/Machine/Commands.lean ====
section
/-! DEFINITION. The commands of the host (45_history_debug.md R168 to R175, 44_sequencer.md R134, R148,
R150, 70_reset_and_hazards.md R200 to R204). -/

namespace Sys2Proof.Machine

/-- `reset()`: everything at its reset value but the program, the breakpoints and the parameters
(70 R200). -/
def State.resetCore (s : State) : State :=
  { State.reset with prog := s.prog, bp := s.bp, params := s.params }

/-- Why a load changes nothing. -/
inductive LoadError where
  /-- The text does not assemble (30_encoding.md R77). -/
  | assembly (e : AssemblyError)
  /-- A word that is no canonical instruction word, at this index (R65, R66: the loader refuses the
  whole program). -/
  | inadmissibleWord (index : Nat)
  /-- The program does not have fewer than 2^62 instructions (10_state.md R23). -/
  | tooLong
  deriving DecidableEq, Repr

/-- The word is admitted to `PROG`: canonical, of one of the eleven kinds (R65, R66). -/
def admissible (w : InstrWord) : Bool :=
  match decode w with
  | .ok _ => true
  | .error _ => false

/-- Loads a program of words with their source lines: all admitted, or nothing changes (R65; 70 R202). -/
def State.loadWords (s : State) (entries : List ProgEntry) : Except LoadError State :=
  match entries.findIdx? (fun e => !admissible e.word) with
  | some k => .error (.inadmissibleWord k)
  | none =>
    if entries.length < Config.progBound then .ok ({ s with prog := entries } : State).resetCore
    else .error .tooLong

/-- `loadProgram(text)` (70 R202, R203). -/
def State.loadProgram (s : State) (text : SourceText) : Except LoadError State :=
  match assemble text with
  | .error e => .error (.assembly e)
  | .ok entries => s.loadWords entries

/-- Adds the line if it is absent and removes it if present, keeping the list strictly rising. -/
def toggleLine (line : Nat) : List Nat → List Nat
  | [] => [line]
  | l :: ls =>
    if line < l then line :: l :: ls
    else if line = l then ls
    else l :: toggleLine line ls

/-- `toggleBreakpoint(line)` (45 R168). Lines are 1-based: 0 is no line and changes nothing. -/
def State.toggleBreakpoint (s : State) (line : Nat) : State :=
  if line = 0 then s else { s with bp := toggleLine line s.bp }

/-- The outcomes of the command `step()` (44 R134), and the model's refusal. -/
inductive StepResult where
  | stepped (e : Snapshot)
  | completed
  | fault (f : Fault)
  | refused (r : Refusal)
  deriving DecidableEq, Repr

/-- The command `step()`: its outcome and the state after it; a fault changes nothing (R134, 60 R185). -/
def stepCommand (s : State) : StepResult × State :=
  if s.completed then (.completed, s)
  else
    match step s with
    | .next t => (.stepped t.snapshot, t)
    | .fault f => (.fault f, s)
    | .refused r => (.refused r, s)

/-- The breakpoint a run would stop at: at a boundary, the line of the next instruction is in `BP`
(44 R148, 45 R168). -/
def State.breakpointAhead (s : State) : Option Nat :=
  if s.atBoundary then
    match s.prog[s.pc.toNat / 4]? with
    | none => none
    | some e => if s.bp.contains e.line then some e.line else none
  else none

/-- How a continuous run ends (44 R148). -/
inductive RunResult where
  | completed
  | fault (f : Fault)
  | breakpoint (line : Nat)
  | cancelled
  | refused (r : Refusal)
  /-- The list of ticks ended: the model's budget, not an end the hardware knows (R147). -/
  | outOfTicks
  deriving DecidableEq, Repr

/-- The loop of `runUntilHalt` (44 R148): one element of `ticks` per timer tick, the value of the host's
`shouldContinue` flag before it (R150). -/
def runLoop (first : Bool) : List Bool → State → RunResult × State
  | [], s => (.outOfTicks, s)
  | false :: _, s => (.cancelled, s)
  | true :: ticks, s =>
    match (if first then none else s.breakpointAhead) with
    | some line => (.breakpoint line, s)
    | none =>
      match stepCommand s with
      | (.completed, t) => (.completed, t)
      | (.fault f, t) => (.fault f, t)
      | (.refused r, t) => (.refused r, t)
      | (.stepped _, t) => runLoop false ticks t

/-- `runUntilHalt(speed)`; the speed has no effect on the sequence of states (44 R148, 70 R214). -/
def runUntilHalt (_speed : Fin 5) (ticks : List Bool) (s : State) : RunResult × State := runLoop true ticks s

/-- The commands the host may issue (45 R170). -/
inductive Command where
  | loadProgram (text : SourceText)
  | reset
  | step
  | runUntilHalt (speed : Fin 5) (ticks : List Bool)
  | toggleBreakpoint (line : Nat)
  | undo
  | redo
  | undoToInstructionStart (index : Nat)
  deriving DecidableEq, Repr

/-- What the host gets back (45 R170). -/
inductive Response where
  | done
  | loadFailed (e : LoadError)
  | stepResult (r : StepResult)
  | runResult (r : RunResult)
  | snapshot (e : Option Snapshot)
  deriving DecidableEq, Repr

/-! ## What the core exposes (45_history_debug.md R171) -/

/-- The derived `InstructionFields` of a program word, read in the format of its kind (R171, 30 R59);
none for a word of no kind, which no program holds. -/
def ProgEntry.instructionFields (e : ProgEntry) : Option InstructionFields :=
  (kindOf e.word).map (fun k => fields e.word k.format)

/-- The snapshot at the cursor: what undo, redo and the latest phase left (R164, R165); none while the
history is empty, since there is no snapshot of the Idle state (R164). -/
def State.exposedSnapshot (s : State) : Option Snapshot :=
  match s.cur with
  | none => none
  | some c => s.hist[c]?

/-- What a consumer reads, by value: the snapshot, and the fields of each instruction of the program in
order (R171). -/
structure View where
  snapshot : Option Snapshot
  instructions : List (Option InstructionFields)
  deriving DecidableEq, Repr

/-- The read-only view of the core (R171): a function of the state, so no consumer changes the core
through it. -/
def State.view (s : State) : View :=
  { snapshot := s.exposedSnapshot, instructions := s.prog.map ProgEntry.instructionFields }

/-! ## Serving -/

/-- One command served, atomically, between phases (45 R170). -/
def serve (c : Command) (s : State) : Response × State :=
  match c with
  | .loadProgram text =>
    match s.loadProgram text with
    | .ok t => (.done, t)
    | .error e => (.loadFailed e, s)
  | .reset => (.done, s.resetCore)
  | .step => (.stepResult (stepCommand s).1, (stepCommand s).2)
  | .runUntilHalt speed ticks =>
    (.runResult (Sys2Proof.Machine.runUntilHalt speed ticks s).1, (Sys2Proof.Machine.runUntilHalt speed ticks s).2)
  | .toggleBreakpoint line => (.done, s.toggleBreakpoint line)
  | .undo => (.snapshot (Sys2Proof.Machine.undo s).1, (Sys2Proof.Machine.undo s).2)
  | .redo => (.snapshot (Sys2Proof.Machine.redo s).1, (Sys2Proof.Machine.redo s).2)
  | .undoToInstructionStart i =>
    (.snapshot (Sys2Proof.Machine.undoToInstructionStart i s).1, (Sys2Proof.Machine.undoToInstructionStart i s).2)

end Sys2Proof.Machine
end

