-- ==== Sys2Proof/Machine/InstructionLevel.lean ====
section
/-! DEFINITION. The instruction level: what the six phases of one instruction do together, written from
the pseudocode of the instruction rules (00_scope.md R8; 41_arith_logic.md R100 to R105,
42_load_store.md R110, R111, 43_branch.md R121 to R123). The phase level is the normative one; that the
two agree is a statement for the provers. -/

namespace Sys2Proof.Machine

/-- The architectural state the pseudocode works on: registers, `pc`, flags, data memory. -/
structure Arch where
  regs : Regs
  pc : Word
  flags : Flags
  mem : Memory
  deriving DecidableEq, Repr

/-- The architectural part of a state. -/
def State.arch (s : State) : Arch := { regs := s.regs, pc := s.pc, flags := s.flags, mem := s.mem }

/-- `x[r]` (10_state.md R11). -/
def Arch.x (a : Arch) (r : Reg) : Word := if h : r.val < 31 then a.regs[r.val] else 0#64

/-- `x[r] <- v` (R11). -/
def Arch.setX (a : Arch) (r : Reg) (v : Word) : Arch := { a with regs := Regs.write a.regs r v }

/-- `pc <- t`, or `InvalidPCError(t)` (43_branch.md R124). -/
def Arch.goto (a : Arch) (t : Int) : Except Fault Arch :=
  if t < 0 ∨ t ≥ 2 ^ 64 ∨ t % 4 ≠ 0 then .error (.invalidPCError t)
  else .ok { a with pc := BitVec.ofInt 64 t }

/-- `pc <- pc + 4` (41_arith_logic.md R106). -/
def Arch.advance (a : Arch) : Except Fault Arch := a.goto (a.pc.toNat + 4)

/-- The flags CBZ and CBNZ write for the register value `v` (43_branch.md R122). -/
def comparisonFlags (v : Word) : Flags := { n := v.getLsbD 63, z := v == 0#64, c := true, v := false }

/-- The effect of one whole instruction, from the pseudocode of its rule. -/
def instructionLevel (alignCheck : Bool) (i : Instr) (a : Arch) : Except Fault Arch :=
  match i with
  | .add rd rn rm => (a.setX rd (a.x rn + a.x rm)).advance
  | .sub rd rn rm => (a.setX rd (a.x rn - a.x rm)).advance
  | .and rd rn rm => (a.setX rd (a.x rn &&& a.x rm)).advance
  | .orr rd rn rm => (a.setX rd (a.x rn ||| a.x rm)).advance
  | .addi rd rn imm => (a.setX rd (BitVec.ofInt 64 ((a.x rn).toNat + imm))).advance
  | .subi rd rn imm => (a.setX rd (BitVec.ofInt 64 ((a.x rn).toNat - imm))).advance
  | .ldur rt rn imm =>
    match memRead alignCheck a.mem (BitVec.ofInt 64 ((a.x rn).toNat + imm)) .doubleword with
    | .error f => .error f
    | .ok v => (a.setX rt v).advance
  | .stur rt rn imm =>
    match memWrite alignCheck a.mem (BitVec.ofInt 64 ((a.x rn).toNat + imm)) .doubleword (a.x rt) with
    | .error f => .error f
    | .ok m => ({ a with mem := m } : Arch).advance
  | .b offset => a.goto (a.pc.toNat + 4 + offset)
  | .cbz rt count =>
    ({ a with flags := comparisonFlags (a.x rt) } : Arch).goto
      (a.pc.toNat + 4 + (if a.x rt = 0#64 then 4 * count else 0))
  | .cbnz rt count =>
    ({ a with flags := comparisonFlags (a.x rt) } : Arch).goto
      (a.pc.toNat + 4 + (if a.x rt ≠ 0#64 then 4 * count else 0))

end Sys2Proof.Machine
end

