-- ==== Sys2Proof/Safety.lean ====
section
/-! DEFINITION. What the claims speak of: the invariant of the core, chains of phases and of steps, and
the instruction a state is working on. -/

namespace Sys2Proof.Machine

/-! ## Observing an outcome -/

/-- The next state, if there is one. -/
def nextOf (r : Result) : Option State :=
  match r with
  | .next t => some t
  | .fault _ => none
  | .refused _ => none

/-- The fault, if there is one. -/
def faultOf (r : Result) : Option Fault :=
  match r with
  | .next _ => none
  | .fault f => some f
  | .refused _ => none

/-- The refusal, if there is one. -/
def refusalIn (r : Result) : Option Refusal :=
  match r with
  | .next _ => none
  | .fault _ => none
  | .refused e => some e

/-! ## Chains of phases -/

/-- `exec i` answers a next state again and again, `n` times, from `s` to `t`: `n` phases of `i`. -/
def ExecChain (i : Instr) : Nat → State → State → Prop
  | 0, s, t => s = t
  | n + 1, s, t => ∃ u, exec i s = .next u ∧ ExecChain i n u t

/-- `n` calls of `step` from `s` to `t`, each of which performed a phase: the Stepped outcome of R134. -/
def StepChain : Nat → State → State → Prop
  | 0, s, t => s = t
  | n + 1, s, t => s.completed = false ∧ ∃ u, step s = .next u ∧ StepChain n u t

/-- The sequencer stands at a boundary whose next instruction's line is a breakpoint (R148, 45 R168). -/
def State.AtBreakpoint (s : State) : Prop :=
  s.atBoundary = true ∧ ∃ e, s.prog[s.pc.toNat / 4]? = some e ∧ e.line ∈ s.bp

/-! ## The instruction at work -/

/-- The instruction of a program at an index, where it is an admissible word. -/
def instrAt (prog : List ProgEntry) (k : Nat) : Option Instr :=
  match prog[k]? with
  | none => none
  | some e =>
    match decode e.word with
    | .ok i => some i
    | .error _ => none

/-- The instruction the next call of `step` works on. -/
def State.current (s : State) : Option Instr := instrAt s.prog s.fetchIndex

/-! ## Per-kind tables the claims use -/

/-- The state after an Execute phase with ALU output `o`, the flags committed or not (R138). -/
def State.executed (s : State) (o : AluOutput) (commit : Bool) : State :=
  { s with
    aluResult := some o.result
    flags := if commit then o.flags else s.flags
    microStep := .phase .execute }

/-- `shouldBranch` of R141. -/
def shouldBranch (i : Instr) (s : State) : Bool :=
  match i with
  | .b _ => true
  | .cbz rt _ => decide (s.readReg rt = 0#64)
  | .cbnz rt _ => decide (s.readReg rt ≠ 0#64)
  | .add _ _ _ | .sub _ _ _ | .and _ _ _ | .orr _ _ _ | .addi _ _ _ | .subi _ _ _ | .ldur _ _ _ | .stur _ _ _ =>
    false

/-- `offset` of R141, in bytes; unused (0) for the kinds that do not branch. -/
def branchOffset (i : Instr) : Int :=
  match i with
  | .b offset => offset
  | .cbz _ count => 4 * count
  | .cbnz _ count => 4 * count
  | .add _ _ _ | .sub _ _ _ | .and _ _ _ | .orr _ _ _ | .addi _ _ _ | .subi _ _ _ | .ldur _ _ _ | .stur _ _ _ =>
    0

/-- The new `pc` as a mathematical integer: `pc + 4 + (shouldBranch ? offset : 0)` (R141). -/
def nextPC (i : Instr) (s : State) : Int :=
  (s.pc.toNat : Int) + 4 + (if shouldBranch i s then branchOffset i else 0)

/-- `t` cannot be held by `pc` (43_branch.md R124). -/
def badTarget (t : Int) : Prop := t < 0 ∨ t ≥ 2 ^ 64 ∨ t % 4 ≠ 0

/-- The doubleword access at `a` is refused (20_memory.md R36, R37). -/
def badDoubleword (alignCheck : Bool) (a : Word) : Prop :=
  (alignCheck = true ∧ a.toNat % 8 ≠ 0) ∨ a.toNat + 7 > 2 ^ 64 - 1

/-! ## The invariant -/

/-- The engine's part of the invariant, on a snapshot of it, for the program `prog`. -/
structure EngineInv (prog : List ProgEntry) (e : Snapshot) : Prop where
  /-- The memory is in its canonical form (10_state.md R29). -/
  mem_wf : e.mem.wf = true
  /-- Memory lies in the address space (20_memory.md R30). -/
  mem_bounded : e.mem.bounded = true
  /-- `pc` is a multiple of 4 (10_state.md R14). -/
  pc_aligned : e.pc.toNat % 4 = 0
  /-- FlagWrite is never set (40_control_alu.md R83). -/
  flagWrite_false : e.ctrl.flagWrite = false
  /-- Inside an instruction the index is `pc / 4` and lies in the program (44_sequencer.md R133). -/
  index_of_pc : e.microStep.boundary = false →
    e.instructionIndex = e.pc.toNat / 4 ∧ e.instructionIndex < prog.length
  /-- After Fetch all control signals are false (R136). -/
  ctrl_fetch : e.microStep = .phase .fetch → e.ctrl = ControlSignals.clear
  /-- From Decode to WriteBack the control signals are those of the kind (R137). -/
  ctrl_decoded : ∀ i, e.microStep.boundary = false → e.microStep ≠ .phase .fetch →
    instrAt prog e.instructionIndex = some i → e.ctrl = controlSignals i.kind
  /-- After Execute of a kind other than B the ALU latch is present (R138, R139). -/
  alu_latch : ∀ i, e.microStep = .phase .execute ∨ e.microStep = .phase .memory →
    instrAt prog e.instructionIndex = some i → i.kind ≠ .b → e.aluResult.isSome = true
  /-- After Memory of LDUR the load latch is present (R139, R140). -/
  mem_latch : ∀ i, e.microStep = .phase .memory →
    instrAt prog e.instructionIndex = some i → i.kind = .ldur → e.memData.isSome = true

/-- The invariant of the core. -/
structure State.Inv (s : State) : Prop where
  /-- The engine's part. -/
  engine : EngineInv s.prog s.snapshot
  /-- The program is shorter than 2^62 instructions (10_state.md R23). -/
  prog_short : s.prog.length < Config.progBound
  /-- The program holds admissible words only (30_encoding.md R65, R66). -/
  prog_admissible : ∀ e ∈ s.prog, admissible e.word = true
  /-- The ring holds at least one snapshot's worth (45_history_debug.md R162). -/
  histMax_pos : 1 ≤ s.params.histMax
  /-- The ring is bounded (R162, R163). -/
  hist_bounded : s.hist.length ≤ s.params.histMax
  /-- Every snapshot is one of a sound engine and none is Idle (R161). -/
  hist_sound : ∀ e ∈ s.hist, EngineInv s.prog e ∧ e.microStep ≠ .idle
  /-- No cursor for an empty ring; else the snapshot at the cursor is the engine's state (R162, R167). -/
  cursor_none : s.cur = none → s.hist = []
  /-- The snapshot at the cursor is the engine's present state (R163 to R167). -/
  cursor_here : ∀ c, s.cur = some c → s.hist[c]? = some s.snapshot
  /-- The breakpoint list is a set in canonical form (R168). -/
  bp_rising : s.bp.Pairwise (· < ·)
  /-- Breakpoints are 1-based lines (R168). -/
  bp_positive : ∀ l ∈ s.bp, 0 < l

end Sys2Proof.Machine
end

