-- ==== Sys2Proof/Certificates/Slice0/Obligations.lean ====
section
/-! DEFINITION. The statements for the provers. Each docstring names the rules of spec/ a statement
rests on. -/

open Sys2Proof Sys2Proof.Machine

/-! ## Encoding -/

/-- R62, R63: decoding an encoded well-formed instruction gives it back, operands and all; and
conversely every word that decodes is the encoding of the (well-formed) instruction it decodes to. -/
def Obligations.DecodeInvertsEncode : Prop :=
  (∀ i : Instr, i.wellFormed = true → kindOf (encode i) = some i.kind ∧ decode (encode i) = .ok i) ∧
  (∀ (w : InstrWord) (i : Instr), decode w = .ok i → i.wellFormed = true ∧ encode i = w)

/-- R60, R61: a word is of kind k exactly if its bits under the mask of k's row equal the row's
match value; the eleven rows are the table's. The opcode values are the spec's decisions D1 and
D2. -/
def Obligations.OpcodeMapIsMaskAndMatch : Prop :=
  (∀ (w : InstrWord) (k : Kind),
    kindOf w = some k ↔ w &&& (opcodeRow k).maskBits = (opcodeRow k).matchBits) ∧
  opcodeTable.map (fun row => (row.kind, row.matchBits, row.maskBits)) =
    [(.add, 0x8B000000#32, 0xFFE00000#32), (.sub, 0xCB000000#32, 0xFFE00000#32),
      (.and, 0x8A000000#32, 0xFFE00000#32), (.orr, 0xAA000000#32, 0xFFE00000#32),
      (.addi, 0x91000000#32, 0xFFC00000#32), (.subi, 0xD1000000#32, 0xFFC00000#32),
      (.ldur, 0xF8400000#32, 0xFFE00000#32), (.stur, 0xF8000000#32, 0xFFE00000#32),
      (.b, 0x14000000#32, 0xFC000000#32), (.cbz, 0xB4000000#32, 0xFF000000#32),
      (.cbnz, 0xB5000000#32, 0xFF000000#32)]

/-- R65, R66: the words that decode are those of a known kind whose unowned bits (R format [15:10],
D format [11:10]) are zero; a word of no kind and a word with an unowned bit set are told apart.
That the other words are inadmissible is the spec's decision D14. -/
def Obligations.AdmissibleWordsAreCanonical : Prop :=
  ∀ w : InstrWord,
    ((∃ i, decode w = .ok i) ↔
      ∃ k, kindOf w = some k ∧ (k.format = .r → w.extractLsb' 10 6 = 0#6) ∧
        (k.format = .d → w.extractLsb' 10 2 = 0#2)) ∧
    (decode w = .error .undefinedWord ↔ kindOf w = none) ∧
    (decode w = .error .reservedWord ↔
      ∃ k, kindOf w = some k ∧
        ((k.format = .r ∧ w.extractLsb' 10 6 ≠ 0#6) ∨ (k.format = .d ∧ w.extractLsb' 10 2 ≠ 0#2)))

/-- R65, R66 (93 U1, U2): where the selected word is inadmissible, `step` refuses by name, and it
does not run as anything. The refusal is the spec's decision D14. -/
def Obligations.StepRefusesInadmissibleWords : Prop :=
  ∀ (s : State) (e : ProgEntry), s.completed = false → s.prog[s.fetchIndex]? = some e →
    (decode e.word = .error .undefinedWord → step s = .refused .undefinedWord) ∧
    (decode e.word = .error .reservedWord → step s = .refused .reservedWord)

/-- R78: the worked encodings decode to the instructions they are written for. The opcode values are
the spec's decision D1, the CB opcode's width its decision D2. -/
def Obligations.WorkedEncodingsDecode : Prop :=
  decode 0x910193E1#32 = .ok (.addi 1 31 100) ∧ decode 0x8B010022#32 = .ok (.add 2 1 1) ∧
  decode 0xCB0700C5#32 = .ok (.sub 5 6 7) ∧ decode 0x8A1F03C0#32 = .ok (.and 0 30 31) ∧
  decode 0xAA0B0149#32 = .ok (.orr 9 10 11) ∧ decode 0xD13FFC63#32 = .ok (.subi 3 3 (-1)) ∧
  decode 0xF8000061#32 = .ok (.stur 1 3 0) ∧ decode 0xF8500149#32 = .ok (.ldur 9 10 (-256)) ∧
  decode 0x14000014#32 = .ok (.b 20) ∧ decode 0x17FFFFF0#32 = .ok (.b (-16)) ∧
  decode 0xB400004A#32 = .ok (.cbz 10 2) ∧ decode 0xB5FFFFA1#32 = .ok (.cbnz 1 (-3))

/-- R59, R63: the display's field extraction reads back from an encoding the opcode, the registers
and the sign-extended immediate, for all five formats. R60, R62: the opcode values are the spec's
decision D1, the 8-bit CB opcode its decision D2, the zero shamt its decision D27. Fields a format
lacks read as none here; the spec gives them no value (decision D18). -/
def Obligations.FieldExtractionOfEncodings : Prop :=
  ∀ i : Instr, i.wellFormed = true →
    fields (encode i) i.kind.format =
      match i with
      | .add rd rn rm => ⟨0x458, some rd, some rn, some rm, none, some 0, .r⟩
      | .sub rd rn rm => ⟨0x658, some rd, some rn, some rm, none, some 0, .r⟩
      | .and rd rn rm => ⟨0x450, some rd, some rn, some rm, none, some 0, .r⟩
      | .orr rd rn rm => ⟨0x550, some rd, some rn, some rm, none, some 0, .r⟩
      | .addi rd rn imm => ⟨0x244, some rd, some rn, none, some imm, none, .i⟩
      | .subi rd rn imm => ⟨0x344, some rd, some rn, none, some imm, none, .i⟩
      | .ldur rt rn imm => ⟨0x7C2, some rt, some rn, none, some imm, none, .d⟩
      | .stur rt rn imm => ⟨0x7C0, some rt, some rn, none, some imm, none, .d⟩
      | .b offset => ⟨0x05, none, none, none, some offset, none, .b⟩
      | .cbz rt count => ⟨0xB4, some rt, none, none, some count, none, .cb⟩
      | .cbnz rt count => ⟨0xB5, some rt, none, none, some count, none, .cb⟩

/-! ## The ALU -/

/-- R91: the result is the sum or difference modulo 2^64, or the bitwise AND or OR. The wrap is the
spec's decision D7. -/
def Obligations.AluResultIsArithmetic : Prop :=
  ∀ a b : Word,
    (compute a b .add).result.toNat = (a.toNat + b.toNat) % 2 ^ 64 ∧
    ((compute a b .sub).result.toNat : Int) = ((a.toNat : Int) - b.toNat) % 2 ^ 64 ∧
    (∀ k, (compute a b .and).result.getLsbD k = (a.getLsbD k && b.getLsbD k)) ∧
    (∀ k, (compute a b .orr).result.getLsbD k = (a.getLsbD k || b.getLsbD k))

/-- R92: N is the sign of the signed 64-bit result, Z says that all 64 bits are zero. -/
def Obligations.AluNegativeAndZeroFlags : Prop :=
  ∀ (a b : Word) (op : AluOp),
    ((compute a b op).flags.n = true ↔ (compute a b op).result.toInt < 0) ∧
    ((compute a b op).flags.z = true ↔ (compute a b op).result.toNat = 0)

/-- R93, R95: C is the carry out of bit 31 of a sum and the absence of a borrow into bit 32 of a
difference, on the low halves; it is false for AND and ORR. The low halves are the spec's decision
D4, AND and ORR its decision D5. -/
def Obligations.AluCarryIsOf32Bits : Prop :=
  ∀ a b : Word,
    ((compute a b .add).flags.c = true ↔ (a.setWidth 32).toNat + (b.setWidth 32).toNat > 0xFFFFFFFF) ∧
    ((compute a b .sub).flags.c = true ↔ (a.setWidth 32).toNat ≥ (b.setWidth 32).toNat) ∧
    (compute a b .and).flags.c = false ∧ (compute a b .orr).flags.c = false

/-- R94, R95: V says that the signed sum or difference of the low 32-bit halves does not fit 32
bits; it is false for AND and ORR. The test is the spec's decision D4, AND and ORR its decision
D5. -/
def Obligations.AluOverflowIsOf32Bits : Prop :=
  ∀ a b : Word,
    ((compute a b .add).flags.v = true ↔
      ¬ (-(2 : Int) ^ 31 ≤ (a.setWidth 32).toInt + (b.setWidth 32).toInt ∧
          (a.setWidth 32).toInt + (b.setWidth 32).toInt < 2 ^ 31)) ∧
    ((compute a b .sub).flags.v = true ↔
      ¬ (-(2 : Int) ^ 31 ≤ (a.setWidth 32).toInt - (b.setWidth 32).toInt ∧
          (a.setWidth 32).toInt - (b.setWidth 32).toInt < 2 ^ 31)) ∧
    (compute a b .and).flags.v = false ∧ (compute a b .orr).flags.v = false

/-- R96, R122: the comparison of CBZ and CBNZ gives the value itself, N its bit 63, Z its being
zero, C true and V false. The subtraction is the spec's decision D6. -/
def Obligations.ComparisonWithZero : Prop :=
  ∀ v : Word, compute v 0#64 .sub =
    { result := v, flags := { n := v.getLsbD 63, z := decide (v = 0#64), c := true, v := false } }

/-- R97: ADDI with immediate -k and SUBI with immediate k end in the same registers, memory, flags,
`pc` and latches, from any instruction boundary. The wrap is the spec's decision D7. -/
def Obligations.AddiOfNegatedImmediateIsSubi : Prop :=
  ∀ (rd rn : Reg) (k : Int) (s t u : State), -2047 ≤ k → k ≤ 2047 → s.atBoundary = true →
    ExecChain (.addi rd rn (-k)) 6 s t → ExecChain (.subi rd rn k) 6 s u → t = u

/-! ## Registers and memory -/

/-- R10, R11: a write is read back by that register and by no other; register 31 reads 0 and a write to
it changes nothing. -/
def Obligations.ZeroRegisterAndRegisterWrites : Prop :=
  ∀ (s : State) (r q : Reg) (v : Word),
    (s.writeReg r v).readReg q = (if q = r ∧ r ≠ 31 then v else s.readReg q) ∧
    s.readReg 31 = 0#64 ∧ s.writeReg 31 v = s

/-- R49: after an admitted write, a read of the same width at the same address gives the value modulo
256^n; for a doubleword, the value itself. -/
def Obligations.DataMemoryRoundTrip : Prop :=
  ∀ (c : Bool) (m m' : Memory) (a v : Word) (width : AccessWidth), m.wf = true →
    memWrite c m a width v = .ok m' →
      (∃ r, memRead c m' a width = .ok r ∧ r.toNat = v.toNat % 256 ^ width.bytes) ∧
      (width = .doubleword → memRead c m' a width = .ok v)

/-- R34, R35: an admitted write stores byte k of the value at address a + k for k below the width, and
changes no other byte; the canonical form is kept. -/
def Obligations.StoredBytesLittleEndian : Prop :=
  ∀ (c : Bool) (m m' : Memory) (a v : Word) (width : AccessWidth), m.wf = true →
    memWrite c m a width v = .ok m' →
      (∀ k, k < width.bytes → m'.readByte (a.toNat + k) = v.extractLsb' (8 * k) 8) ∧
      (∀ d, d < a.toNat ∨ a.toNat + width.bytes ≤ d → m'.readByte d = m.readByte d) ∧ m'.wf = true

/-- R33: an admitted read gives the sum of the bytes at a + k times 256^k. -/
def Obligations.LoadedValueIsByteSum : Prop :=
  ∀ (c : Bool) (m : Memory) (a v : Word) (width : AccessWidth), memRead c m a width = .ok v →
    v.toNat = ∑ k ∈ Finset.range width.bytes, (m.readByte (a.toNat + k)).toNat * 256 ^ k

/-- R36, R37: an access faults with its own address exactly if it is misaligned while ALIGN_CHECK is
set, or would pass address 2^64 - 1. The conditions are the spec's decisions D9 and D10. -/
def Obligations.AccessFaultConditions : Prop :=
  ∀ (c : Bool) (m : Memory) (a v : Word) (width : AccessWidth) (f : Fault),
    (memRead c m a width = .error f ↔
      f = .memoryAccessError a ∧
        ((c = true ∧ width.bytes > 1 ∧ a.toNat % width.bytes ≠ 0) ∨ a.toNat + width.bytes - 1 > 2 ^ 64 - 1)) ∧
    (memWrite c m a width v = .error f ↔
      f = .memoryAccessError a ∧
        ((c = true ∧ width.bytes > 1 ∧ a.toNat % width.bytes ≠ 0) ∨ a.toNat + width.bytes - 1 > 2 ^ 64 - 1))

/-! ## The six phases, for every instruction -/

/-- R135, R136, R137, R82, R83: the Fetch phase of every instruction clears `ctrl` and changes
nothing else but `microStep`; the Decode phase latches the control signals of the kind, which are
the table's. The kept latches are the spec's decision D21, FlagWrite of CBZ and CBNZ its decision
D13. -/
def Obligations.FetchAndDecodePhases : Prop :=
  (∀ (i : Instr) (s : State), s.atBoundary = true →
    exec i s = .next { s with ctrl := ControlSignals.clear, microStep := .phase .fetch }) ∧
  (∀ (i : Instr) (s : State), s.microStep = .phase .fetch →
    exec i s = .next { s with ctrl := controlSignals i.kind, microStep := .phase .decode }) ∧
  (∀ k : Kind, controlSignals k =
    { regWrite := decide (k ∈ [Kind.add, .sub, .and, .orr, .addi, .subi, .ldur])
      aluSrc := decide (k ∈ [Kind.addi, .subi, .ldur, .stur])
      memRead := decide (k = .ldur)
      memWrite := decide (k = .stur)
      memToReg := decide (k = .ldur)
      reg2Loc := decide (k = .stur)
      uncondBranch := decide (k = .b)
      zeroBranch := decide (k ∈ [Kind.cbz, .cbnz])
      flagWrite := false
      pcSrc := false })

/-- R138, R96: the Execute phase latches the ALU result of the kind's operation and operands, and
commits the flags for CBZ and CBNZ or where FlagWrite is set; that of B changes `microStep` only.
The operation of CBZ and CBNZ is the spec's decision D6; that B keeps `aluResult` its decision D21;
C and V of `compute` are its decisions D4 and D5, the wrap of its result D7. -/
def Obligations.ExecutePhaseOfEveryKind : Prop :=
  ∀ (i : Instr) (s : State), s.microStep = .phase .decode →
    exec i s = .next
      (match i with
      | .add _ rn rm => s.executed (compute (s.readReg rn) (s.readReg rm) .add) s.ctrl.flagWrite
      | .sub _ rn rm => s.executed (compute (s.readReg rn) (s.readReg rm) .sub) s.ctrl.flagWrite
      | .and _ rn rm => s.executed (compute (s.readReg rn) (s.readReg rm) .and) s.ctrl.flagWrite
      | .orr _ rn rm => s.executed (compute (s.readReg rn) (s.readReg rm) .orr) s.ctrl.flagWrite
      | .addi _ rn imm => s.executed (compute (s.readReg rn) (BitVec.ofInt 64 imm) .add) s.ctrl.flagWrite
      | .subi _ rn imm => s.executed (compute (s.readReg rn) (BitVec.ofInt 64 imm) .sub) s.ctrl.flagWrite
      | .ldur _ rn imm => s.executed (compute (s.readReg rn) (BitVec.ofInt 64 imm) .add) s.ctrl.flagWrite
      | .stur _ rn imm => s.executed (compute (s.readReg rn) (BitVec.ofInt 64 imm) .add) s.ctrl.flagWrite
      | .b _ => { s with microStep := .phase .execute }
      | .cbz rt _ => s.executed (compute (s.readReg rt) 0#64 .sub) true
      | .cbnz rt _ => s.executed (compute (s.readReg rt) 0#64 .sub) true)

/-- R139: the Memory phase of LDUR latches the doubleword at `aluResult`, that of STUR stores x[rt]
there, each faults instead where the access is refused, and that of every other kind changes
`microStep` only. The conditions are the spec's decisions D9 and D10; that STUR reads x[rt] in this
phase is its decision D29. -/
def Obligations.MemoryPhaseOfEveryKind : Prop :=
  (∀ (rt rn : Reg) (imm : Int) (s : State) (a : Word),
    s.microStep = .phase .execute → s.aluResult = some a →
      (¬ badDoubleword s.params.alignCheck a →
        exec (.ldur rt rn imm) s = .next { s with
          memData := some (BitVec.ofNat 64 (s.mem.readLE a.toNat 8)), microStep := .phase .memory } ∧
        exec (.stur rt rn imm) s = .next { s with
          mem := s.mem.writeLE a.toNat 8 (s.readReg rt).toNat, microStep := .phase .memory }) ∧
      (badDoubleword s.params.alignCheck a →
        exec (.ldur rt rn imm) s = .fault (.memoryAccessError a) ∧
        exec (.stur rt rn imm) s = .fault (.memoryAccessError a))) ∧
  (∀ (i : Instr) (s : State), s.microStep = .phase .execute → i.kind ≠ .ldur → i.kind ≠ .stur →
    exec i s = .next { s with microStep := .phase .memory })

/-- R140: the WriteBack phase writes `aluResult` to rd for the six arithmetic and logic kinds and
`memData` to rt for LDUR (register 31 takes no value), and changes `microStep` only for the others. -/
def Obligations.WriteBackPhaseOfEveryKind : Prop :=
  ∀ (i : Instr) (s : State), s.microStep = .phase .memory →
    match i with
    | .add rd _ _ | .sub rd _ _ | .and rd _ _ | .orr rd _ _ | .addi rd _ _ | .subi rd _ _ =>
      ∀ v, s.aluResult = some v →
        exec i s = .next { s with regs := Regs.write s.regs rd v, microStep := .phase .writeBack }
    | .ldur rt _ _ =>
      ∀ v, s.memData = some v →
        exec i s = .next { s with regs := Regs.write s.regs rt v, microStep := .phase .writeBack }
    | .stur _ _ _ | .b _ | .cbz _ _ | .cbnz _ _ => exec i s = .next { s with microStep := .phase .writeBack }

/-- R141, R124: the UpdatePC phase of every kind sets `pc` to pc + 4, plus the offset where the
branch is taken, and PCSrc to the branch decision; where that target is negative, not below 2^64 or
not a multiple of 4 it faults with the target. The fault is the spec's decision D8, the scaling of
CBZ and CBNZ its decision D3, that their register is read in this phase its decision D29. -/
def Obligations.UpdatePCPhaseOfEveryKind : Prop :=
  ∀ (i : Instr) (s : State), s.microStep = .phase .writeBack →
    (badTarget (nextPC i s) → exec i s = .fault (.invalidPCError (nextPC i s))) ∧
    (¬ badTarget (nextPC i s) → ∃ t, exec i s = .next t ∧ (t.pc.toNat : Int) = nextPC i s ∧
      t = { s with
            pc := t.pc, ctrl := { s.ctrl with pcSrc := shouldBranch i s }, microStep := .phase .updatePC })

/-! ## What six phases of one instruction do -/

/-- R100, R106: six phases of ADD from an instruction boundary. The wrap is the spec's decision D7,
the kept `memData` its decision D21. -/
def Obligations.AddCompletes : Prop :=
  ∀ (rd rn rm : Reg) (s : State), s.atBoundary = true → s.pc.toNat % 4 = 0 → s.pc.toNat + 4 < 2 ^ 64 →
    ExecChain (.add rd rn rm) 6 s { s with
      regs := Regs.write s.regs rd (s.readReg rn + s.readReg rm)
      pc := s.pc + 4#64
      ctrl := controlSignals .add
      aluResult := some (s.readReg rn + s.readReg rm)
      microStep := .phase .updatePC }

/-- R101, R106: six phases of SUB from an instruction boundary. The wrap is the spec's decision D7,
the kept `memData` its decision D21. -/
def Obligations.SubCompletes : Prop :=
  ∀ (rd rn rm : Reg) (s : State), s.atBoundary = true → s.pc.toNat % 4 = 0 → s.pc.toNat + 4 < 2 ^ 64 →
    ExecChain (.sub rd rn rm) 6 s { s with
      regs := Regs.write s.regs rd (s.readReg rn - s.readReg rm)
      pc := s.pc + 4#64
      ctrl := controlSignals .sub
      aluResult := some (s.readReg rn - s.readReg rm)
      microStep := .phase .updatePC }

/-- R102, R106: six phases of AND from an instruction boundary. The kept `memData` is the spec's
decision D21. -/
def Obligations.AndCompletes : Prop :=
  ∀ (rd rn rm : Reg) (s : State), s.atBoundary = true → s.pc.toNat % 4 = 0 → s.pc.toNat + 4 < 2 ^ 64 →
    ExecChain (.and rd rn rm) 6 s { s with
      regs := Regs.write s.regs rd (s.readReg rn &&& s.readReg rm)
      pc := s.pc + 4#64
      ctrl := controlSignals .and
      aluResult := some (s.readReg rn &&& s.readReg rm)
      microStep := .phase .updatePC }

/-- R103, R106: six phases of ORR from an instruction boundary. The kept `memData` is the spec's
decision D21. -/
def Obligations.OrrCompletes : Prop :=
  ∀ (rd rn rm : Reg) (s : State), s.atBoundary = true → s.pc.toNat % 4 = 0 → s.pc.toNat + 4 < 2 ^ 64 →
    ExecChain (.orr rd rn rm) 6 s { s with
      regs := Regs.write s.regs rd (s.readReg rn ||| s.readReg rm)
      pc := s.pc + 4#64
      ctrl := controlSignals .orr
      aluResult := some (s.readReg rn ||| s.readReg rm)
      microStep := .phase .updatePC }

/-- R104, R106: six phases of ADDI from an instruction boundary; the value is x[rn] + imm modulo
2^64. The wrap is the spec's decision D7, the kept `memData` its decision D21. -/
def Obligations.AddiCompletes : Prop :=
  ∀ (rd rn : Reg) (imm : Int) (s : State),
    s.atBoundary = true → s.pc.toNat % 4 = 0 → s.pc.toNat + 4 < 2 ^ 64 →
    ExecChain (.addi rd rn imm) 6 s { s with
      regs := Regs.write s.regs rd (BitVec.ofInt 64 ((s.readReg rn).toNat + imm))
      pc := s.pc + 4#64
      ctrl := controlSignals .addi
      aluResult := some (BitVec.ofInt 64 ((s.readReg rn).toNat + imm))
      microStep := .phase .updatePC }

/-- R105, R106: six phases of SUBI from an instruction boundary; the value is x[rn] - imm modulo
2^64. The wrap is the spec's decision D7, the kept `memData` its decision D21. -/
def Obligations.SubiCompletes : Prop :=
  ∀ (rd rn : Reg) (imm : Int) (s : State),
    s.atBoundary = true → s.pc.toNat % 4 = 0 → s.pc.toNat + 4 < 2 ^ 64 →
    ExecChain (.subi rd rn imm) 6 s { s with
      regs := Regs.write s.regs rd (BitVec.ofInt 64 ((s.readReg rn).toNat - imm))
      pc := s.pc + 4#64
      ctrl := controlSignals .subi
      aluResult := some (BitVec.ofInt 64 ((s.readReg rn).toNat - imm))
      microStep := .phase .updatePC }

/-- R110, R112: six phases of LDUR from an instruction boundary, where the access is admitted. The
address and the conditions are the spec's decisions D9 and D10. -/
def Obligations.LdurCompletes : Prop :=
  ∀ (rt rn : Reg) (imm : Int) (s : State),
    s.atBoundary = true → s.pc.toNat % 4 = 0 → s.pc.toNat + 4 < 2 ^ 64 →
    ¬ badDoubleword s.params.alignCheck (effectiveAddress s rn imm) →
    ExecChain (.ldur rt rn imm) 6 s { s with
      regs := Regs.write s.regs rt (BitVec.ofNat 64 (s.mem.readLE (effectiveAddress s rn imm).toNat 8))
      pc := s.pc + 4#64
      ctrl := controlSignals .ldur
      aluResult := some (effectiveAddress s rn imm)
      memData := some (BitVec.ofNat 64 (s.mem.readLE (effectiveAddress s rn imm).toNat 8))
      microStep := .phase .updatePC }

/-- R111, R112: six phases of STUR from an instruction boundary, where the access is admitted. The
address and the conditions are the spec's decisions D9 and D10. The kept `memData` is its decision
D21, that x[rt] is read in the Memory phase its decision D29. -/
def Obligations.SturCompletes : Prop :=
  ∀ (rt rn : Reg) (imm : Int) (s : State),
    s.atBoundary = true → s.pc.toNat % 4 = 0 → s.pc.toNat + 4 < 2 ^ 64 →
    ¬ badDoubleword s.params.alignCheck (effectiveAddress s rn imm) →
    ExecChain (.stur rt rn imm) 6 s { s with
      mem := s.mem.writeLE (effectiveAddress s rn imm).toNat 8 (s.readReg rt).toNat
      pc := s.pc + 4#64
      ctrl := controlSignals .stur
      aluResult := some (effectiveAddress s rn imm)
      microStep := .phase .updatePC }

/-- R121: six phases of B from an instruction boundary, where the target is one `pc` can hold: the
target is pc + 4 + offset; registers, memory, flags and latches are untouched. The condition is the
spec's decision D8. The kept `aluResult` and latches are its decision D21. -/
def Obligations.BranchCompletes : Prop :=
  ∀ (offset : Int) (s : State), s.atBoundary = true → ¬ badTarget (s.pc.toNat + 4 + offset) →
    ∃ t, ExecChain (.b offset) 6 s t ∧ (t.pc.toNat : Int) = s.pc.toNat + 4 + offset ∧
      t = { s with
            pc := t.pc
            ctrl := { controlSignals .b with pcSrc := true }
            microStep := .phase .updatePC }

/-- R122: six phases of CBZ from an instruction boundary: the flags of the comparison whether or not
the branch is taken; the target is pc + 4 + 4 * count where x[rt] = 0, else pc + 4. The scaling is
the spec's decision D3, the flags C and V its decision D6, the condition its decision D8, the kept
`memData` its decision D21, FlagWrite false its decision D13, when x[rt] is read its decision D29. -/
def Obligations.CbzCompletes : Prop :=
  ∀ (rt : Reg) (count : Int) (s : State), s.atBoundary = true →
    ¬ badTarget (s.pc.toNat + 4 + (if s.readReg rt = 0#64 then 4 * count else 0)) →
    ∃ t, ExecChain (.cbz rt count) 6 s t ∧
      (t.pc.toNat : Int) = s.pc.toNat + 4 + (if s.readReg rt = 0#64 then 4 * count else 0) ∧
      t = { s with
            pc := t.pc
            flags := { n := (s.readReg rt).getLsbD 63, z := decide (s.readReg rt = 0#64), c := true, v := false }
            ctrl := { controlSignals .cbz with pcSrc := decide (s.readReg rt = 0#64) }
            aluResult := some (s.readReg rt)
            microStep := .phase .updatePC }

/-- R123: six phases of CBNZ from an instruction boundary: as CBZ, taken where x[rt] is not 0. The
scaling is the spec's decision D3, the flags C and V its decision D6, the condition its decision D8,
the kept `memData` its decision D21, FlagWrite false its decision D13, when x[rt] is read its decision
D29. -/
def Obligations.CbnzCompletes : Prop :=
  ∀ (rt : Reg) (count : Int) (s : State), s.atBoundary = true →
    ¬ badTarget (s.pc.toNat + 4 + (if s.readReg rt ≠ 0#64 then 4 * count else 0)) →
    ∃ t, ExecChain (.cbnz rt count) 6 s t ∧
      (t.pc.toNat : Int) = s.pc.toNat + 4 + (if s.readReg rt ≠ 0#64 then 4 * count else 0) ∧
      t = { s with
            pc := t.pc
            flags := { n := (s.readReg rt).getLsbD 63, z := decide (s.readReg rt = 0#64), c := true, v := false }
            ctrl := { controlSignals .cbnz with pcSrc := decide (s.readReg rt ≠ 0#64) }
            aluResult := some (s.readReg rt)
            microStep := .phase .updatePC }

/-! ## Faults -/

/-- R112, R185, R187: where the access is refused, LDUR and STUR perform three phases, which change
only `ctrl`, `aluResult` and `microStep`, and the fourth faults with the effective address. The
conditions are the spec's decisions D9 and D10, that nothing is committed its decision D19, the kept
`memData` its decision D21. -/
def Obligations.LoadAndStoreFaults : Prop :=
  ∀ (rt rn : Reg) (imm : Int) (s : State), s.atBoundary = true →
    badDoubleword s.params.alignCheck (effectiveAddress s rn imm) →
    (∃ t, ExecChain (.ldur rt rn imm) 3 s t ∧
      t = { s with
            ctrl := controlSignals .ldur
            aluResult := some (effectiveAddress s rn imm)
            microStep := .phase .execute } ∧
      exec (.ldur rt rn imm) t = .fault (.memoryAccessError (effectiveAddress s rn imm))) ∧
    (∃ t, ExecChain (.stur rt rn imm) 3 s t ∧
      t = { s with
            ctrl := controlSignals .stur
            aluResult := some (effectiveAddress s rn imm)
            microStep := .phase .execute } ∧
      exec (.stur rt rn imm) t = .fault (.memoryAccessError (effectiveAddress s rn imm)))

/-- R121, R122, R123, R185: where the target of a branch cannot be held by `pc`, five phases are
performed, the flags of CBZ and CBNZ written, and the sixth faults with the target; `pc` keeps its
value. The fault is the spec's decision D8, the target of CBZ and CBNZ its decision D3, their flags
C and V its decision D6, the kept latches (`aluResult` of B) its decision D21, that the faulting
phase commits nothing its decision D19, FlagWrite of CBZ and CBNZ its decision D13,
when their register is read its decision D29. -/
def Obligations.BranchTargetFaults : Prop :=
  (∀ (offset : Int) (s : State), s.atBoundary = true → badTarget (s.pc.toNat + 4 + offset) →
    ∃ t, ExecChain (.b offset) 5 s t ∧
      t = { s with ctrl := controlSignals .b, microStep := .phase .writeBack } ∧
      exec (.b offset) t = .fault (.invalidPCError (s.pc.toNat + 4 + offset))) ∧
  (∀ (rt : Reg) (count : Int) (s : State), s.atBoundary = true → s.readReg rt = 0#64 →
    badTarget (s.pc.toNat + 4 + 4 * count) →
    ∃ t, ExecChain (.cbz rt count) 5 s t ∧
      t = { s with
            flags := { n := false, z := true, c := true, v := false }
            ctrl := controlSignals .cbz
            aluResult := some 0#64
            microStep := .phase .writeBack } ∧
      exec (.cbz rt count) t = .fault (.invalidPCError (s.pc.toNat + 4 + 4 * count))) ∧
  (∀ (rt : Reg) (count : Int) (s : State), s.atBoundary = true → s.readReg rt ≠ 0#64 →
    badTarget (s.pc.toNat + 4 + 4 * count) →
    ∃ t, ExecChain (.cbnz rt count) 5 s t ∧
      t = { s with
            flags := { n := (s.readReg rt).getLsbD 63, z := false, c := true, v := false }
            ctrl := controlSignals .cbnz
            aluResult := some (s.readReg rt)
            microStep := .phase .writeBack } ∧
      exec (.cbnz rt count) t = .fault (.invalidPCError (s.pc.toNat + 4 + 4 * count)))

/-- R180, R182, R183, R188: the only faults of a phase are `MemoryAccessError` of the Memory phase of
LDUR and STUR, with the address in `aluResult`, and `InvalidPCError` of the UpdatePC phase, with the
target of R120, R124 and R141, each under its condition. The conditions are the spec's decisions D8,
D9 and D10, the scaling of the target of CBZ and CBNZ its decision D3, that their register is read in
this phase its decision D29. -/
def Obligations.FaultSources : Prop :=
  ∀ (i : Instr) (s : State) (f : Fault), exec i s = .fault f ↔
    (∃ a, f = .memoryAccessError a ∧ (i.kind = .ldur ∨ i.kind = .stur) ∧ s.microStep = .phase .execute ∧
      s.aluResult = some a ∧ badDoubleword s.params.alignCheck a) ∨
    (f = .invalidPCError (nextPC i s) ∧ s.microStep = .phase .writeBack ∧ badTarget (nextPC i s))

/-- R106, R124, R188: in a state of the invariant `InvalidPCError` is raised by B, CBZ and CBNZ
only. The fault is the spec's decision D8, the bound on the program, which keeps the other kinds from
it, its decision D23. -/
def Obligations.OnlyBranchesRaiseInvalidPC : Prop :=
  ∀ (s : State) (t : Int), s.Inv → step s = .fault (.invalidPCError t) →
    ∃ i, s.current = some i ∧ (i.kind = .b ∨ i.kind = .cbz ∨ i.kind = .cbnz)

/-! ## Frames, for every instruction -/

/-- R13: a phase changes no general register but rd of ADD, SUB, AND, ORR, ADDI, SUBI and rt of LDUR,
and these in the WriteBack phase only. -/
def Obligations.RegisterFrame : Prop :=
  ∀ (i : Instr) (s t : State), exec i s = .next t →
    (s.microStep ≠ .phase .memory → t.regs = s.regs) ∧
    (∀ q : Reg,
      (match i with
      | .add rd _ _ | .sub rd _ _ | .and rd _ _ | .orr rd _ _ | .addi rd _ _ | .subi rd _ _ => q ≠ rd
      | .ldur rt _ _ => q ≠ rt
      | .stur _ _ _ | .b _ | .cbz _ _ | .cbnz _ _ => True) →
      t.readReg q = s.readReg q)

/-- R38, R139: a phase changes no byte of memory but the eight bytes from `aluResult`, and these in the
Memory phase of STUR only. -/
def Obligations.MemoryFrame : Prop :=
  ∀ (i : Instr) (s t : State), s.mem.wf = true → exec i s = .next t →
    (i.kind ≠ .stur ∨ s.microStep ≠ .phase .execute → t.mem = s.mem) ∧
    (∀ (a : Word) (d : Nat), s.aluResult = some a → d < a.toNat ∨ a.toNat + 8 ≤ d →
      t.mem.readByte d = s.mem.readByte d)

/-- R111, R34: six phases of STUR store the bytes of x[rt], least significant first, at the
effective address, and every byte outside these eight reads as before. The wrap of the address is
the spec's decision D10, that x[rt] is read in the Memory phase its decision D29. -/
def Obligations.StoreInstructionFrame : Prop :=
  ∀ (rt rn : Reg) (imm : Int) (s t : State), s.atBoundary = true → s.mem.wf = true →
    ExecChain (.stur rt rn imm) 6 s t →
    (∀ k, k < 8 → t.mem.readByte ((effectiveAddress s rn imm).toNat + k) = (s.readReg rt).extractLsb' (8 * k) 8) ∧
    (∀ d, d < (effectiveAddress s rn imm).toNat ∨ (effectiveAddress s rn imm).toNat + 8 ≤ d →
      t.mem.readByte d = s.mem.readByte d)

/-- R16, R96: while FlagWrite is false (an invariant of its own), the flags are written by the
Execute phase of CBZ and CBNZ, with the flags of the comparison, and by nothing else. That the
comparison is the subtraction of 0 is the spec's decision D6, the tests of C and V its decision D4. -/
def Obligations.FlagsFrame : Prop :=
  ∀ (i : Instr) (s t : State), s.ctrl.flagWrite = false → exec i s = .next t →
    t.flags =
      match i, s.microStep with
      | .cbz rt _, .phase .decode => (compute (s.readReg rt) 0#64 .sub).flags
      | .cbnz rt _, .phase .decode => (compute (s.readReg rt) 0#64 .sub).flags
      | _, _ => s.flags

/-- R14, R20, R21, R22, R137, R141, R46, R169: a phase leaves the program, the history, the cursor,
the breakpoints, the parameters and `instructionIndex`; `pc` changes in UpdatePC only, `ctrl` in
Fetch, Decode and UpdatePC only, `aluResult` in Execute of a kind other than B only, `memData` in
Memory of LDUR only; and the phase performed is the next one. That `aluResult` and `memData` keep
their values between instructions, and that `ctrl` is cleared at Fetch, is the spec's decision D21;
when the index is written its decision D28. -/
def Obligations.SequencerFrame : Prop :=
  ∀ (i : Instr) (s t : State), exec i s = .next t →
    t.prog = s.prog ∧ t.hist = s.hist ∧ t.cur = s.cur ∧ t.bp = s.bp ∧ t.params = s.params ∧
    t.instructionIndex = s.instructionIndex ∧
    t.microStep = .phase s.microStep.next ∧
    (s.microStep ≠ .phase .writeBack → t.pc = s.pc) ∧
    (s.microStep = .phase .decode ∨ s.microStep = .phase .execute ∨ s.microStep = .phase .memory →
      t.ctrl = s.ctrl) ∧
    (s.microStep ≠ .phase .decode ∨ i.kind = .b → t.aluResult = s.aluResult) ∧
    (s.microStep ≠ .phase .execute ∨ i.kind ≠ .ldur → t.memData = s.memData)

/-! ## The step -/

/-- R145, R133, R142: where the run is not complete and the word at the selected index (pc / 4 at a
boundary, else `instructionIndex`) decodes to i, `step` is `exec i` on the state with
`instructionIndex` written, its next state recorded in the history, its fault or refusal unchanged.
When the index is written is the spec's decision D28, that a fault commits and records nothing its
decisions D19 and D20. -/
def Obligations.StepRunsDecodedInstruction : Prop :=
  ∀ (s : State) (e : ProgEntry) (i : Instr), s.completed = false →
    s.prog[if s.atBoundary then s.pc.toNat / 4 else s.instructionIndex]? = some e → decode e.word = .ok i →
    step s =
      match exec i { s with
        instructionIndex := if s.atBoundary then s.pc.toNat / 4 else s.instructionIndex } with
      | .next t => .next (record t)
      | .fault f => .fault f
      | .refused r => .refused r

/-- R134, R146: `step` answers the state it was given exactly if the run is complete (a boundary
with pc / 4 >= N); every performed phase changes the state. The answer at completion is the spec's
decision D20; that it is the same state is log entry 2. -/
def Obligations.CompletionIsTheOnlyStandstill : Prop :=
  ∀ s : State, step s = .next s ↔ (s.atBoundary = true ∧ s.prog.length ≤ s.pc.toNat / 4)

/-- R143, R144, R133: from a boundary where the run is not complete, the calls of `step` that answer
a next state perform phases 0, 1, 2, 3, 4, 5 in turn; `instructionIndex` is pc / 4 through all six,
and the seventh call, if it performs a phase, writes it as the new pc / 4. When the index is written
is the spec's decision D28. -/
def Obligations.StepCycle : Prop :=
  ∀ (s : State), s.atBoundary = true → s.completed = false →
    (∀ (n : Nat) (t : State), n < 6 → StepChain (n + 1) s t →
      t.microStep.number = n ∧ t.instructionIndex = s.pc.toNat / 4) ∧
    (∀ (u t : State), StepChain 6 s u → u.completed = false → step u = .next t →
      t.microStep.number = 0 ∧ t.instructionIndex = u.pc.toNat / 4)

/-- R8: the phase level agrees with the instruction level. From a boundary where the selected word
decodes to i, if the pseudocode of i's rule gives an architectural state, six calls of `step` reach
it at the next boundary; if it raises a fault, fewer than six calls of `step` reach a state where
`step` raises that fault. The spec's decisions the cited rules mark: D3 (scaling), D6 (flags of the
comparison), D7 (wrap), D8 (target), D9 and D10 (access conditions, address), D19 (a fault commits
nothing), D21 (B keeps the flags), D29 (when x[rt] is read). -/
def Obligations.PhasesMeetInstructionLevel : Prop :=
  ∀ (s : State) (i : Instr), s.atBoundary = true → s.completed = false → s.current = some i →
    match instructionLevel s.params.alignCheck i s.arch with
    | .ok a => ∃ t, StepChain 6 s t ∧ t.arch = a ∧ t.microStep = .phase .updatePC
    | .error f => ∃ n t, n < 6 ∧ StepChain n s t ∧ step t = .fault f

/-- R46, R26, R169, R23: no step changes the program, the parameters or the breakpoints. -/
def Obligations.StepNeverWritesProgram : Prop :=
  ∀ s t : State, step s = .next t → t.prog = s.prog ∧ t.params = s.params ∧ t.bp = s.bp

/-! ## The invariant -/

/-- R27, R200: the invariant holds at reset. The empty breakpoint set there is the model's choice
(log entry 3). The reset values of `pc`, latches and index are the spec's decision D11. -/
def Obligations.ResetMeetsInvariant : Prop := State.reset.Inv

/-- R14, R16, R29, R133, R137, R162: every step keeps the invariant. Parts of the invariant rest on
the spec's decisions D8 (aligned `pc`), D10 (memory in the address space), D13 (FlagWrite false),
D14 (admissible words), D21 (cleared `ctrl`, latches), D23 (bound on the program) and D28
(index). -/
def Obligations.StepKeepsInvariant : Prop := ∀ s t : State, s.Inv → step s = .next t → t.Inv

/-- R65, R66, R139, R133: in a state of the invariant `step` refuses nothing: it answers a next
state or one of the two faults. The refusals it excludes are those of inadmissible words, which the
spec's decision D14 keeps out of a program, and latchAbsent and noInstruction of log entry 7. -/
def Obligations.InvariantExcludesRefusal : Prop := ∀ (s : State) (r : Refusal), s.Inv → step s ≠ .refused r

/-- R170: every command of the host keeps the invariant. It rests on the spec's decisions D14
(admitted words), D17 (undo and redo), D22 (kept breakpoints) and D23 (bound on the program). -/
def Obligations.CommandsKeepInvariant : Prop := ∀ (c : Command) (s : State), s.Inv → (serve c s).2.Inv

/-- R16: the flags influence no register, no memory byte, no `pc` and nothing else of the core: from two
states that differ in the flags only, `step` stops alike, or goes on to states that differ in the flags
and in the recorded snapshots only. -/
def Obligations.FlagsInfluenceNothingElse : Prop :=
  ∀ (s : State) (f : Flags),
    match step s with
    | .next t => ∃ (g : Flags) (h : List Snapshot), step { s with flags := f } = .next { t with flags := g, hist := h }
    | .fault e => step { s with flags := f } = .fault e
    | .refused r => step { s with flags := f } = .refused r

/-! ## History -/

/-- R163: a performed phase drops the entries after the cursor, appends the snapshot of the new
state, evicts the oldest entry past the bound, and puts the cursor at the tail. Recording in a state
without a cursor whose ring is not empty, and a ring of capacity 0, are the model's choice (log
entry 13), not R163's. -/
def Obligations.StepRecordsSnapshot : Prop :=
  ∀ (s t : State) (kept : List Snapshot), s.completed = false → step s = .next t →
    kept = (match s.cur with | none => s.hist | some c => s.hist.take (c + 1)) →
    t.hist = (if kept.length + 1 > s.params.histMax then (kept ++ [t.snapshot]).tail else kept ++ [t.snapshot]) ∧
    (1 ≤ s.params.histMax → t.hist.getLast? = some t.snapshot ∧ t.cur = some (t.hist.length - 1))

/-- R164, R175: after a performed phase from a state with a history, in a ring of at least two,
`undo` returns the snapshot of the state before it and makes it the engine's state. That undo
restores the engine is the spec's decision D17. -/
def Obligations.UndoTakesBackOneStep : Prop :=
  ∀ s t : State, s.Inv → s.hist ≠ [] → 2 ≤ s.params.histMax → s.completed = false → step s = .next t →
    (undo t).1 = some s.snapshot ∧ (undo t).2.snapshot = s.snapshot ∧ (undo t).2.hist = t.hist

/-- R164, R165, R167: in a state of the invariant, `redo` after a successful `undo` returns the
snapshot of the state before the `undo` and restores that state whole; each of the two answers none,
and changes nothing, exactly at its end of the ring. That undo and redo restore the engine is the
spec's decision D17. -/
def Obligations.RedoUndoesUndo : Prop :=
  ∀ s : State, s.Inv →
    (∀ (e : Snapshot) (t : State), undo s = (some e, t) → redo t = (some s.snapshot, s)) ∧
    (∀ (e : Snapshot) (t : State), redo s = (some e, t) → undo t = (some s.snapshot, s)) ∧
    (undo s = (none, s) ↔ s.cur = none ∨ s.cur = some 0) ∧
    (redo s = (none, s) ↔ s.cur = none ∨ s.cur = some (s.hist.length - 1))

/-- R166: `undoToInstructionStart i` moves to the latest snapshot at or before the cursor that was
recorded by the Fetch phase of instruction i and restores it; it answers none, and changes nothing,
where there is none, and where there is no cursor (the empty ring). The search is the spec's
decision D17. -/
def Obligations.UndoToInstructionStartFindsLatest : Prop :=
  ∀ (i : Nat) (s : State),
    (s.cur = none → undoToInstructionStart i s = (none, s)) ∧
    ∀ c : Nat, s.cur = some c →
      (∀ (j : Nat) (e : Snapshot), j ≤ c → s.hist[j]? = some e → e.instructionIndex = i →
        e.microStep = .phase .fetch →
        (∀ k d, j < k → k ≤ c → s.hist[k]? = some d → ¬ (d.instructionIndex = i ∧ d.microStep = .phase .fetch)) →
        undoToInstructionStart i s = (some e, { s.restore e with cur := some j })) ∧
      ((∀ k d, k ≤ c → s.hist[k]? = some d → ¬ (d.instructionIndex = i ∧ d.microStep = .phase .fetch)) →
        undoToInstructionStart i s = (none, s))

/-! ## Host commands -/

/-- R200, R174, R201: `reset` gives every piece of state its reset value and leaves the program, the
breakpoints and the parameters. The values of flags, latches and index are the spec's decision D11,
the kept breakpoints its decision D22. -/
def Obligations.ResetValues : Prop :=
  ∀ (s t : State), (serve .reset s).2 = t →
    (∀ r : Reg, t.readReg r = 0#64) ∧ (∀ a, t.mem.readByte a = 0#8) ∧ t.pc = 0#64 ∧
    t.flags = { n := false, z := false, c := false, v := false } ∧ t.aluResult = none ∧ t.memData = none ∧
    t.ctrl = ControlSignals.clear ∧ t.microStep = .idle ∧ t.microStep.number = -1 ∧ t.instructionIndex = 0 ∧
    t.hist = [] ∧ t.cur = none ∧ t.prog = s.prog ∧ t.bp = s.bp ∧ t.params = s.params

/-- R202, R203, R70: a text that assembles to fewer than 2^62 instructions is loaded: the state
after is that after reset with the new program (every assembled word is admitted); its source lines
are positive and strictly rising; a text that does not assemble changes nothing. The reset values
are the spec's decision D11, the kept breakpoints its decision D22, the range of immediates its
decision D12. The texts refused beyond what the spec shows are log entries 6, 18 and 19, the bound
the spec's decision D23, the answer beyond it log entry 14. -/
def Obligations.LoadProgramOutcome : Prop :=
  ∀ (text : SourceText) (s : State),
    (∀ entries, assemble text = .ok entries → entries.length < 2 ^ 62 →
      serve (.loadProgram text) s = (.done, { s.resetCore with prog := entries }) ∧
      (entries.map ProgEntry.line).Pairwise (· < ·) ∧ ∀ e ∈ entries, 0 < e.line ∧ ∃ i, decode e.word = .ok i) ∧
    (∀ err, assemble text = .error err →
      serve (.loadProgram text) s = (.loadFailed (.assembly err), s))

/-- R148, R150, R152, R168: a continuous run that performs n phases ends in the state that n calls
of `step` give; each of its n readings of `shouldContinue` is true, and after the first phase it
passes no boundary whose next instruction's line is a breakpoint. It stops where the run is complete
(there no next instruction has a line), where `step` faults or refuses and no breakpoint is ahead,
at a breakpoint after at least one phase and without performing the next, at the first false
reading, or at the end of the readings. The place of the breakpoint check and the exemption of the
first iteration are the spec's decision D16; the budget of readings is log entry 11. -/
def Obligations.RunIsSingleSteps : Prop :=
  ∀ (speed : Fin 5) (ticks : List Bool) (s t : State) (r : RunResult),
    runUntilHalt speed ticks s = (r, t) →
    ∃ n, StepChain n s t ∧ (∀ k, k < n → ticks[k]? = some true) ∧
      (∀ m u, 0 < m → m < n → StepChain m s u → ¬ u.AtBreakpoint) ∧
      match r with
      | .completed => ticks[n]? = some true ∧ t.completed = true
      | .fault f => ticks[n]? = some true ∧ step t = .fault f ∧ (0 < n → ¬ t.AtBreakpoint)
      | .breakpoint line => ticks[n]? = some true ∧ 0 < n ∧ t.AtBreakpoint ∧
          ∃ e, t.prog[t.pc.toNat / 4]? = some e ∧ e.line = line
      | .cancelled => ticks[n]? = some false
      | .refused x => ticks[n]? = some true ∧ step t = .refused x ∧ (0 < n → ¬ t.AtBreakpoint)
      | .outOfTicks => n = ticks.length

/-- R168, R169: `toggleBreakpoint` adds an absent line, removes a present one, changes nothing else, and
undoes itself. -/
def Obligations.ToggleBreakpointToggles : Prop :=
  ∀ (s : State) (line : Nat), 0 < line → s.bp.Pairwise (· < ·) →
    (∀ l, l ∈ (s.toggleBreakpoint line).bp ↔ (if l = line then l ∉ s.bp else l ∈ s.bp)) ∧
    s.toggleBreakpoint line = { s with bp := (s.toggleBreakpoint line).bp } ∧
    (s.toggleBreakpoint line).toggleBreakpoint line = s
end

