-- ==== Sys2Proof/Laws/State.lean ====
section
/-! SUPPORT. One lemma per field per update of State, true by rfl, so that no proof unfolds a record
update. -/

namespace Sys2Proof.Laws

open Sys2Proof.Machine

/-! ## writeReg -/

@[simp] theorem writeReg_regs (s : State) (r : Reg) (v : Word) :
    (s.writeReg r v).regs = Regs.write s.regs r v := rfl
@[simp] theorem writeReg_pc (s : State) (r : Reg) (v : Word) : (s.writeReg r v).pc = s.pc := rfl
@[simp] theorem writeReg_flags (s : State) (r : Reg) (v : Word) : (s.writeReg r v).flags = s.flags := rfl
@[simp] theorem writeReg_mem (s : State) (r : Reg) (v : Word) : (s.writeReg r v).mem = s.mem := rfl
@[simp] theorem writeReg_microStep (s : State) (r : Reg) (v : Word) : (s.writeReg r v).microStep = s.microStep := rfl
@[simp] theorem writeReg_instructionIndex (s : State) (r : Reg) (v : Word) : (s.writeReg r v).instructionIndex = s.instructionIndex := rfl
@[simp] theorem writeReg_ctrl (s : State) (r : Reg) (v : Word) : (s.writeReg r v).ctrl = s.ctrl := rfl
@[simp] theorem writeReg_aluResult (s : State) (r : Reg) (v : Word) : (s.writeReg r v).aluResult = s.aluResult := rfl
@[simp] theorem writeReg_memData (s : State) (r : Reg) (v : Word) : (s.writeReg r v).memData = s.memData := rfl
@[simp] theorem writeReg_prog (s : State) (r : Reg) (v : Word) : (s.writeReg r v).prog = s.prog := rfl
@[simp] theorem writeReg_hist (s : State) (r : Reg) (v : Word) : (s.writeReg r v).hist = s.hist := rfl
@[simp] theorem writeReg_cur (s : State) (r : Reg) (v : Word) : (s.writeReg r v).cur = s.cur := rfl
@[simp] theorem writeReg_bp (s : State) (r : Reg) (v : Word) : (s.writeReg r v).bp = s.bp := rfl
@[simp] theorem writeReg_params (s : State) (r : Reg) (v : Word) : (s.writeReg r v).params = s.params := rfl

/-! ## snapshot and restore -/

@[simp] theorem snapshot_microStep (s : State) : s.snapshot.microStep = s.microStep := rfl
@[simp] theorem snapshot_instructionIndex (s : State) : s.snapshot.instructionIndex = s.instructionIndex := rfl
@[simp] theorem snapshot_pc (s : State) : s.snapshot.pc = s.pc := rfl
@[simp] theorem snapshot_flags (s : State) : s.snapshot.flags = s.flags := rfl
@[simp] theorem snapshot_aluResult (s : State) : s.snapshot.aluResult = s.aluResult := rfl
@[simp] theorem snapshot_memData (s : State) : s.snapshot.memData = s.memData := rfl
@[simp] theorem snapshot_regs (s : State) : s.snapshot.regs = s.regs := rfl
@[simp] theorem snapshot_mem (s : State) : s.snapshot.mem = s.mem := rfl
@[simp] theorem snapshot_ctrl (s : State) : s.snapshot.ctrl = s.ctrl := rfl
@[simp] theorem restore_regs (s : State) (e : Snapshot) : (s.restore e).regs = e.regs := rfl
@[simp] theorem restore_pc (s : State) (e : Snapshot) : (s.restore e).pc = e.pc := rfl
@[simp] theorem restore_flags (s : State) (e : Snapshot) : (s.restore e).flags = e.flags := rfl
@[simp] theorem restore_mem (s : State) (e : Snapshot) : (s.restore e).mem = e.mem := rfl
@[simp] theorem restore_microStep (s : State) (e : Snapshot) : (s.restore e).microStep = e.microStep := rfl
@[simp] theorem restore_instructionIndex (s : State) (e : Snapshot) : (s.restore e).instructionIndex = e.instructionIndex := rfl
@[simp] theorem restore_ctrl (s : State) (e : Snapshot) : (s.restore e).ctrl = e.ctrl := rfl
@[simp] theorem restore_aluResult (s : State) (e : Snapshot) : (s.restore e).aluResult = e.aluResult := rfl
@[simp] theorem restore_memData (s : State) (e : Snapshot) : (s.restore e).memData = e.memData := rfl
@[simp] theorem restore_prog (s : State) (e : Snapshot) : (s.restore e).prog = s.prog := rfl
@[simp] theorem restore_hist (s : State) (e : Snapshot) : (s.restore e).hist = s.hist := rfl
@[simp] theorem restore_cur (s : State) (e : Snapshot) : (s.restore e).cur = s.cur := rfl
@[simp] theorem restore_bp (s : State) (e : Snapshot) : (s.restore e).bp = s.bp := rfl
@[simp] theorem restore_params (s : State) (e : Snapshot) : (s.restore e).params = s.params := rfl
@[simp] theorem snapshot_restore (s : State) (e : Snapshot) : (s.restore e).snapshot = e := rfl
@[simp] theorem restore_snapshot (s : State) : s.restore s.snapshot = s := rfl

/-! ## record -/

@[simp] theorem record_regs (s : State) : (record s).regs = s.regs := rfl
@[simp] theorem record_pc (s : State) : (record s).pc = s.pc := rfl
@[simp] theorem record_flags (s : State) : (record s).flags = s.flags := rfl
@[simp] theorem record_mem (s : State) : (record s).mem = s.mem := rfl
@[simp] theorem record_microStep (s : State) : (record s).microStep = s.microStep := rfl
@[simp] theorem record_instructionIndex (s : State) : (record s).instructionIndex = s.instructionIndex := rfl
@[simp] theorem record_ctrl (s : State) : (record s).ctrl = s.ctrl := rfl
@[simp] theorem record_aluResult (s : State) : (record s).aluResult = s.aluResult := rfl
@[simp] theorem record_memData (s : State) : (record s).memData = s.memData := rfl
@[simp] theorem record_prog (s : State) : (record s).prog = s.prog := rfl
theorem record_hist (s : State) :
    (record s).hist = appendBounded s.params.histMax (keptHistory s.hist s.cur) s.snapshot := rfl
theorem record_cur (s : State) : (record s).cur = tailCursor (record s).hist := rfl
@[simp] theorem record_bp (s : State) : (record s).bp = s.bp := rfl
@[simp] theorem record_params (s : State) : (record s).params = s.params := rfl
@[simp] theorem record_snapshot (s : State) : (record s).snapshot = s.snapshot := rfl
@[simp] theorem record_arch (s : State) : (record s).arch = s.arch := rfl
@[simp] theorem record_readReg (s : State) (r : Reg) : (record s).readReg r = s.readReg r := rfl
@[simp] theorem record_atBoundary (s : State) : (record s).atBoundary = s.atBoundary := rfl
@[simp] theorem record_completed (s : State) : (record s).completed = s.completed := rfl
@[simp] theorem record_fetchIndex (s : State) : (record s).fetchIndex = s.fetchIndex := rfl
@[simp] theorem record_current (s : State) : (record s).current = s.current := rfl

/-! ## resetCore -/

@[simp] theorem resetCore_regs (s : State) : s.resetCore.regs = Vector.replicate 31 0#64 := rfl
@[simp] theorem resetCore_pc (s : State) : s.resetCore.pc = 0#64 := rfl
@[simp] theorem resetCore_flags (s : State) : s.resetCore.flags = Flags.clear := rfl
@[simp] theorem resetCore_mem (s : State) : s.resetCore.mem = [] := rfl
@[simp] theorem resetCore_microStep (s : State) : s.resetCore.microStep = .idle := rfl
@[simp] theorem resetCore_instructionIndex (s : State) : s.resetCore.instructionIndex = 0 := rfl
@[simp] theorem resetCore_ctrl (s : State) : s.resetCore.ctrl = ControlSignals.clear := rfl
@[simp] theorem resetCore_aluResult (s : State) : s.resetCore.aluResult = none := rfl
@[simp] theorem resetCore_memData (s : State) : s.resetCore.memData = none := rfl
@[simp] theorem resetCore_prog (s : State) : s.resetCore.prog = s.prog := rfl
@[simp] theorem resetCore_hist (s : State) : s.resetCore.hist = [] := rfl
@[simp] theorem resetCore_cur (s : State) : s.resetCore.cur = none := rfl
@[simp] theorem resetCore_bp (s : State) : s.resetCore.bp = s.bp := rfl
@[simp] theorem resetCore_params (s : State) : s.resetCore.params = s.params := rfl

/-! ## withFetchWord -/

@[simp] theorem withFetchWord_regs (s : State) (nbits w : Nat) : (s.withFetchWord nbits w).regs = s.regs := rfl
@[simp] theorem withFetchWord_pc (s : State) (nbits w : Nat) : (s.withFetchWord nbits w).pc = s.pc := rfl
@[simp] theorem withFetchWord_flags (s : State) (nbits w : Nat) : (s.withFetchWord nbits w).flags = s.flags := rfl
@[simp] theorem withFetchWord_mem (s : State) (nbits w : Nat) : (s.withFetchWord nbits w).mem = s.mem := rfl
@[simp] theorem withFetchWord_microStep (s : State) (nbits w : Nat) : (s.withFetchWord nbits w).microStep = s.microStep := rfl
@[simp] theorem withFetchWord_instructionIndex (s : State) (nbits w : Nat) : (s.withFetchWord nbits w).instructionIndex = s.instructionIndex := rfl
@[simp] theorem withFetchWord_ctrl (s : State) (nbits w : Nat) : (s.withFetchWord nbits w).ctrl = s.ctrl := rfl
@[simp] theorem withFetchWord_aluResult (s : State) (nbits w : Nat) : (s.withFetchWord nbits w).aluResult = s.aluResult := rfl
@[simp] theorem withFetchWord_memData (s : State) (nbits w : Nat) : (s.withFetchWord nbits w).memData = s.memData := rfl
theorem withFetchWord_prog (s : State) (nbits w : Nat) : (s.withFetchWord nbits w).prog =
    placeWord (BitVec.ofNat 32 (w % 2 ^ nbits)) s.fetchIndex s.prog := rfl
@[simp] theorem withFetchWord_hist (s : State) (nbits w : Nat) : (s.withFetchWord nbits w).hist = s.hist := rfl
@[simp] theorem withFetchWord_cur (s : State) (nbits w : Nat) : (s.withFetchWord nbits w).cur = s.cur := rfl
@[simp] theorem withFetchWord_bp (s : State) (nbits w : Nat) : (s.withFetchWord nbits w).bp = s.bp := rfl
@[simp] theorem withFetchWord_params (s : State) (nbits w : Nat) : (s.withFetchWord nbits w).params = s.params := rfl

end Sys2Proof.Laws
end

