-- ==== Sys2Proof/Laws/History.lean ====
section
/-! SUPPORT. What the operations of the history ring can answer (45_history_debug.md R162 to R166). -/

namespace Sys2Proof.Laws

open Sys2Proof.Machine

theorem moveCursor_some {s t : State} {c : Nat} {e : Snapshot} : moveCursor s c = (some e, t) ↔
    s.hist[c]? = some e ∧ t = { s.restore e with cur := some c } := by
  unfold moveCursor
  cases s.hist[c]? with
  | none => simp
  | some x =>
    constructor
    · intro h
      cases h
      exact ⟨rfl, rfl⟩
    · rintro ⟨h, rfl⟩
      cases h
      rfl

theorem moveCursor_none {s t : State} {c : Nat} : moveCursor s c = (none, t) ↔ s.hist[c]? = none ∧ t = s := by
  unfold moveCursor
  cases s.hist[c]? with
  | none =>
    constructor
    · intro h
      cases h
      exact ⟨rfl, rfl⟩
    · rintro ⟨-, rfl⟩
      rfl
  | some x => simp

theorem length_appendBounded_le {n : Nat} {h : List Snapshot} {e : Snapshot} (hn : h.length ≤ n) :
    (appendBounded n h e).length ≤ n := by
  unfold appendBounded
  split
  · simp
    omega
  · omega

theorem mem_appendBounded {n : Nat} {h : List Snapshot} {e x : Snapshot} (hx : x ∈ appendBounded n h e) :
    x ∈ h ∨ x = e := by
  unfold appendBounded at hx
  split at hx
  · have := List.mem_of_mem_drop hx
    simpa using this
  · simpa using hx

theorem mem_keptHistory {h : List Snapshot} {cur : Option Nat} {x : Snapshot} (hx : x ∈ keptHistory h cur) :
    x ∈ h := by
  cases cur with
  | none => exact hx
  | some c => exact List.mem_of_mem_take hx

/-- Appending leaves the new snapshot last, where the bound admits one. -/
theorem getLast?_appendBounded {n : Nat} {h : List Snapshot} {e : Snapshot} (hn : 1 ≤ n) :
    (appendBounded n h e).getLast? = some e := by
  unfold appendBounded
  split
  · cases h with
    | nil =>
      rename_i hl
      simp at hl
      omega
    | cons x h => simp
  · simp

end Sys2Proof.Laws
end

