-- ==== Sys2Proof/Laws/Commands.lean ====
section
/-! SUPPORT. What the host sees of the core: the view of R171 and the breakpoint check of the run loop
(45_history_debug.md R168, R171). -/

namespace Sys2Proof.Laws

open Sys2Proof Sys2Proof.Machine

@[simp] theorem view_snapshot (s : State) : s.view.snapshot = s.exposedSnapshot := rfl
@[simp] theorem view_instructions (s : State) :
    s.view.instructions = s.prog.map ProgEntry.instructionFields := rfl

theorem kind_instrOf (k : Kind) (w : InstrWord) : (instrOf k w).kind = k := by cases k <;> rfl

/-- The fields exposed for an admissible word are those of its instruction's format. -/
theorem instructionFields_of_decode {e : ProgEntry} {i : Instr} (h : decode e.word = .ok i) :
    e.instructionFields = some (fields e.word i.kind.format) := by
  unfold decode at h
  split at h
  · cases h
  · rename_i k hk
    split at h
    · cases h
      simp [ProgEntry.instructionFields, hk, kind_instrOf]
    · cases h

/-- In a state of the invariant the exposed snapshot is the engine's state. -/
theorem exposedSnapshot_of_inv {s : State} (hs : s.Inv) :
    s.exposedSnapshot = if s.cur.isSome then some s.snapshot else none := by
  unfold State.exposedSnapshot
  cases hc : s.cur with
  | none => rfl
  | some c => exact hs.cursor_here c hc

/-- The run loop's check finds no breakpoint exactly where none is ahead. -/
theorem breakpointAhead_none {s : State} : s.breakpointAhead = none ↔ ¬ s.AtBreakpoint := by
  unfold State.breakpointAhead State.AtBreakpoint
  cases hb : s.atBoundary with
  | false => simp
  | true => cases he : s.prog[s.pc.toNat / 4]? <;> simp

/-- A breakpoint found is ahead, and its line is the next instruction's. -/
theorem breakpointAhead_some {s : State} {line : Nat} (h : s.breakpointAhead = some line) :
    s.AtBreakpoint ∧ ∃ e, s.prog[s.pc.toNat / 4]? = some e ∧ e.line = line := by
  unfold State.breakpointAhead at h
  split at h
  · rename_i hb
    split at h
    · cases h
    · rename_i e he
      split at h
      · rename_i hl
        cases h
        exact ⟨⟨hb, e, he, by simpa using hl⟩, e, he, rfl⟩
      · cases h
  · cases h

end Sys2Proof.Laws
end

