-- ==== Sys2Proof/Laws/Memory.lean ====
section
/-! SUPPORT. Data memory: every operation keeps the canonical form, and what a byte reads as after one
(20_memory.md R31 to R37). -/

namespace Sys2Proof.Laws

open Sys2Proof.Machine

/-! ## The canonical form -/

theorem wfFrom_cons (lo a : Nat) (b : Byte) (m : Memory) :
    Memory.wfFrom lo ((a, b) :: m) = true ↔ lo ≤ a ∧ b ≠ 0#8 ∧ Memory.wfFrom (a + 1) m = true := by
  simp [Memory.wfFrom]

theorem wfFrom_mono {lo lo' : Nat} {m : Memory} (h : lo' ≤ lo) (hm : Memory.wfFrom lo m = true) :
    Memory.wfFrom lo' m = true := by
  cases m with
  | nil => rfl
  | cons cell m =>
    obtain ⟨a, b⟩ := cell
    rw [wfFrom_cons] at hm ⊢
    exact ⟨by omega, hm.2⟩

/-- Below the first listed address memory reads 0. -/
theorem readByte_below {lo : Nat} {m : Memory} (hm : Memory.wfFrom lo m = true) {a : Nat} (ha : a < lo) :
    m.readByte a = 0#8 := by
  induction m generalizing lo with
  | nil => rfl
  | cons cell m ih =>
    obtain ⟨k, b⟩ := cell
    rw [wfFrom_cons] at hm
    have hne : k ≠ a := by omega
    simp only [Memory.readByte, hne, if_false]
    exact ih hm.2.2 (by omega)

theorem wfFrom_writeByte {lo : Nat} {m : Memory} (hm : Memory.wfFrom lo m = true) {a : Nat} (ha : lo ≤ a)
    (b : Byte) : Memory.wfFrom lo (m.writeByte a b) = true := by
  induction m generalizing lo with
  | nil =>
    unfold Memory.writeByte
    split
    · rfl
    · rename_i hb
      simp [Memory.wfFrom, hb, ha]
  | cons cell m ih =>
    obtain ⟨k, c⟩ := cell
    have hw := (wfFrom_cons _ _ _ _).1 hm
    unfold Memory.writeByte
    split
    · split
      · exact hm
      · rename_i hlt hb
        exact (wfFrom_cons _ _ _ _).2 ⟨ha, hb, (wfFrom_cons _ _ _ _).2 ⟨by omega, hw.2⟩⟩
    · split
      · rename_i hnlt heq
        subst heq
        split
        · exact wfFrom_mono (by omega) hw.2.2
        · rename_i hb
          exact (wfFrom_cons _ _ _ _).2 ⟨ha, hb, hw.2.2⟩
      · exact (wfFrom_cons _ _ _ _).2 ⟨hw.1, hw.2.1, ih hw.2.2 (by omega)⟩

/-- Writing a byte keeps the canonical form. -/
theorem wf_writeByte {m : Memory} (hm : m.wf = true) (a : Nat) (b : Byte) : (m.writeByte a b).wf = true :=
  wfFrom_writeByte hm (Nat.zero_le a) b

/-- Writing several bytes keeps the canonical form. -/
theorem wf_writeLE {m : Memory} (hm : m.wf = true) (a n v : Nat) : (m.writeLE a n v).wf = true := by
  induction n generalizing m a v with
  | zero => exact hm
  | succ n ih => exact ih (wf_writeByte hm a _) (a + 1) (v / 256)

/-! ## What a byte reads as -/

theorem readByte_writeByte_from {lo : Nat} {m : Memory} (hm : Memory.wfFrom lo m = true) (a : Nat) (b : Byte)
    (c : Nat) : (m.writeByte a b).readByte c = if a = c then b else m.readByte c := by
  induction m generalizing lo with
  | nil =>
    unfold Memory.writeByte
    split
    · rename_i hb
      simp [Memory.readByte, hb]
    · simp [Memory.readByte]
  | cons cell m ih =>
    obtain ⟨k, d⟩ := cell
    have hw := (wfFrom_cons _ _ _ _).1 hm
    unfold Memory.writeByte
    split
    · rename_i hlt
      split
      · rename_i hb
        by_cases hac : a = c
        · subst hac
          have hne : k ≠ a := by omega
          simp only [Memory.readByte, hne, if_false, hb, if_true]
          exact readByte_below hw.2.2 (by omega)
        · simp [hac]
      · simp [Memory.readByte]
    · split
      · rename_i hnlt heq
        subst heq
        split
        · rename_i hb
          by_cases hac : a = c
          · subst hac
            simp only [if_true, hb]
            exact readByte_below hw.2.2 (by omega)
          · simp [Memory.readByte, hac]
        · by_cases hac : a = c <;> simp [Memory.readByte, hac]
      · rename_i hnlt hne
        by_cases hkc : k = c
        · subst hkc
          simp [Memory.readByte, hne]
        · simp only [Memory.readByte, hkc, if_false]
          exact ih hw.2.2

/-- A byte after writing one byte. -/
theorem readByte_writeByte {m : Memory} (hm : m.wf = true) (a : Nat) (b : Byte) (c : Nat) :
    (m.writeByte a b).readByte c = if a = c then b else m.readByte c :=
  readByte_writeByte_from hm a b c

/-- A byte outside the bytes written reads as before. -/
theorem readByte_writeLE_outside {m : Memory} (hm : m.wf = true) (a n v c : Nat) (h : c < a ∨ a + n ≤ c) :
    (m.writeLE a n v).readByte c = m.readByte c := by
  induction n generalizing m a v with
  | zero => rfl
  | succ n ih =>
    have hne : a ≠ c := by omega
    rw [Memory.writeLE, ih (wf_writeByte hm a _) (a + 1) (v / 256) (by omega), readByte_writeByte hm]
    simp [hne]

/-! ## The bounds of the address space -/

theorem bounded_cons (a : Nat) (b : Byte) (m : Memory) :
    Memory.bounded ((a, b) :: m) = true ↔ a < 2 ^ 64 ∧ m.bounded = true := by
  simp [Memory.bounded]

theorem bounded_writeByte {m : Memory} (hm : m.bounded = true) {a : Nat} (ha : a < 2 ^ 64) (b : Byte) :
    (m.writeByte a b).bounded = true := by
  induction m with
  | nil =>
    unfold Memory.writeByte
    split
    · rfl
    · exact (bounded_cons _ _ _).2 ⟨ha, rfl⟩
  | cons cell m ih =>
    obtain ⟨k, c⟩ := cell
    have hb := (bounded_cons _ _ _).1 hm
    unfold Memory.writeByte
    split
    · split
      · exact hm
      · exact (bounded_cons _ _ _).2 ⟨ha, hm⟩
    · split
      · split
        · exact hb.2
        · exact (bounded_cons _ _ _).2 ⟨ha, hb.2⟩
      · exact (bounded_cons _ _ _).2 ⟨hb.1, ih hb.2⟩

theorem bounded_writeLE {m : Memory} (hm : m.bounded = true) (a n v : Nat) (h : a + n ≤ 2 ^ 64) :
    (m.writeLE a n v).bounded = true := by
  induction n generalizing m a v with
  | zero => exact hm
  | succ n ih => exact ih (bounded_writeByte hm (by omega) _) (a + 1) (v / 256) (by omega)

/-! ## The accessors: everything they can answer -/

/-- `memRead` answers the little-endian value exactly where the access is admitted. -/
theorem memRead_ok {c : Bool} {m : Memory} {a : Word} {width : AccessWidth} {v : Word} :
    memRead c m a width = .ok v ↔
      accessFaults c a width = false ∧ v = BitVec.ofNat 64 (m.readLE a.toNat width.bytes) := by
  unfold memRead
  cases h : accessFaults c a width with
  | true => simp
  | false =>
    constructor
    · intro e
      cases e
      exact ⟨rfl, rfl⟩
    · rintro ⟨-, rfl⟩
      rfl

/-- `memWrite` answers the written memory exactly where the access is admitted. -/
theorem memWrite_ok {c : Bool} {m m' : Memory} {a : Word} {width : AccessWidth} {v : Word} :
    memWrite c m a width v = .ok m' ↔
      accessFaults c a width = false ∧ m' = m.writeLE a.toNat width.bytes v.toNat := by
  unfold memWrite
  cases h : accessFaults c a width with
  | true => simp
  | false =>
    constructor
    · intro e
      cases e
      exact ⟨rfl, rfl⟩
    · rintro ⟨-, rfl⟩
      rfl

/-- An admitted access lies in the address space. -/
theorem inRange_of_admitted {c : Bool} {a : Word} {width : AccessWidth} (h : accessFaults c a width = false) :
    a.toNat + width.bytes ≤ 2 ^ 64 := by
  have hw : 1 ≤ width.bytes := by cases width <;> decide
  simp only [accessFaults, outOfRange, Bool.or_eq_false_iff, decide_eq_false_iff_not] at h
  omega

/-- `memWrite` keeps the canonical form. -/
theorem wf_memWrite {c : Bool} {m m' : Memory} {a : Word} {width : AccessWidth} {v : Word}
    (hm : m.wf = true) (h : memWrite c m a width v = .ok m') : m'.wf = true := by
  obtain ⟨-, rfl⟩ := memWrite_ok.1 h
  exact wf_writeLE hm _ _ _

/-- `memWrite` keeps memory in the address space. -/
theorem bounded_memWrite {c : Bool} {m m' : Memory} {a : Word} {width : AccessWidth} {v : Word}
    (hm : m.bounded = true) (h : memWrite c m a width v = .ok m') : m'.bounded = true := by
  obtain ⟨ha, rfl⟩ := memWrite_ok.1 h
  exact bounded_writeLE hm _ _ _ (inRange_of_admitted ha)

/-- Memory at reset is in canonical form. -/
theorem wf_reset : State.reset.mem.wf = true := rfl

end Sys2Proof.Laws
end

