-- ==== Sys2Proof/Laws/PerInstr.lean ====
section
/-! SUPPORT. Per-instruction lemmas: the opcode field of an instruction's encoding is the opcode of its
kind, and the number encoded fits an instruction word (30_encoding.md R60, R62). -/

namespace Sys2Proof.Laws

/-- The immediate pattern is below 2^n. -/
theorem immPattern_lt (n : Nat) (imm : Int) : immPattern n imm < 2 ^ n := by
  unfold immPattern
  have h2 : (0 : Int) < 2 ^ n := by positivity
  have h0 := Int.emod_nonneg imm (ne_of_gt h2)
  have h1 := Int.emod_lt_of_pos imm h2
  zify
  rw [Int.toNat_of_nonneg h0]
  exact h1

/-- The opcode stands above the fields, and the whole is below 2^32. -/
def EncodeOpcode.Statement (i : Instr) : Prop :=
  encodeNat i < 2 ^ 32 ∧ encodeNat i / 2 ^ (opcodeRow i.kind).lo = (opcodeRow i.kind).opcode

theorem EncodeOpcode.add (rd rn rm : Reg) : EncodeOpcode.Statement (.add rd rn rm) := by
  have := rd.isLt; have := rn.isLt; have := rm.isLt
  simp only [Statement, encodeNat, encodeR, opcodeRow, Instr.kind, Kind.format, Format.opcodeLo, Kind.opcode]
  omega

theorem EncodeOpcode.sub (rd rn rm : Reg) : EncodeOpcode.Statement (.sub rd rn rm) := by
  have := rd.isLt; have := rn.isLt; have := rm.isLt
  simp only [Statement, encodeNat, encodeR, opcodeRow, Instr.kind, Kind.format, Format.opcodeLo, Kind.opcode]
  omega

theorem EncodeOpcode.and (rd rn rm : Reg) : EncodeOpcode.Statement (.and rd rn rm) := by
  have := rd.isLt; have := rn.isLt; have := rm.isLt
  simp only [Statement, encodeNat, encodeR, opcodeRow, Instr.kind, Kind.format, Format.opcodeLo, Kind.opcode]
  omega

theorem EncodeOpcode.orr (rd rn rm : Reg) : EncodeOpcode.Statement (.orr rd rn rm) := by
  have := rd.isLt; have := rn.isLt; have := rm.isLt
  simp only [Statement, encodeNat, encodeR, opcodeRow, Instr.kind, Kind.format, Format.opcodeLo, Kind.opcode]
  omega

theorem EncodeOpcode.addi (rd rn : Reg) (imm : Int) : EncodeOpcode.Statement (.addi rd rn imm) := by
  have := rd.isLt; have := rn.isLt; have := immPattern_lt 12 imm
  simp only [Statement, encodeNat, encodeI, opcodeRow, Instr.kind, Kind.format, Format.opcodeLo, Kind.opcode]
  omega

theorem EncodeOpcode.subi (rd rn : Reg) (imm : Int) : EncodeOpcode.Statement (.subi rd rn imm) := by
  have := rd.isLt; have := rn.isLt; have := immPattern_lt 12 imm
  simp only [Statement, encodeNat, encodeI, opcodeRow, Instr.kind, Kind.format, Format.opcodeLo, Kind.opcode]
  omega

theorem EncodeOpcode.ldur (rt rn : Reg) (imm : Int) : EncodeOpcode.Statement (.ldur rt rn imm) := by
  have := rt.isLt; have := rn.isLt; have := immPattern_lt 9 imm
  simp only [Statement, encodeNat, encodeD, opcodeRow, Instr.kind, Kind.format, Format.opcodeLo, Kind.opcode]
  omega

theorem EncodeOpcode.stur (rt rn : Reg) (imm : Int) : EncodeOpcode.Statement (.stur rt rn imm) := by
  have := rt.isLt; have := rn.isLt; have := immPattern_lt 9 imm
  simp only [Statement, encodeNat, encodeD, opcodeRow, Instr.kind, Kind.format, Format.opcodeLo, Kind.opcode]
  omega

theorem EncodeOpcode.b (offset : Int) : EncodeOpcode.Statement (.b offset) := by
  have := immPattern_lt 26 offset
  simp only [Statement, encodeNat, encodeB, opcodeRow, Instr.kind, Kind.format, Format.opcodeLo, Kind.opcode]
  omega

theorem EncodeOpcode.cbz (rt : Reg) (count : Int) : EncodeOpcode.Statement (.cbz rt count) := by
  have := rt.isLt; have := immPattern_lt 19 count
  simp only [Statement, encodeNat, encodeCB, opcodeRow, Instr.kind, Kind.format, Format.opcodeLo, Kind.opcode]
  omega

theorem EncodeOpcode.cbnz (rt : Reg) (count : Int) : EncodeOpcode.Statement (.cbnz rt count) := by
  have := rt.isLt; have := immPattern_lt 19 count
  simp only [Statement, encodeNat, encodeCB, opcodeRow, Instr.kind, Kind.format, Format.opcodeLo, Kind.opcode]
  omega

end Sys2Proof.Laws
end

