-- ==== Sys2Proof/Laws/Phases.lean ====
section
/-! SUPPORT. Everything each phase operation can answer (44_sequencer.md R135 to R141). -/

namespace Sys2Proof.Laws

open Sys2Proof.Machine

theorem loadPhase_next {s t : State} : loadPhase s = .next t ↔
    ∃ a v, s.aluResult = some a ∧ memRead s.params.alignCheck s.mem a .doubleword = .ok v ∧
      t = { s with memData := some v, microStep := .phase .memory } := by
  unfold loadPhase
  constructor
  · intro h
    split at h
    · cases h
    · rename_i a ha
      split at h
      · cases h
      · rename_i v hv
        cases h
        exact ⟨a, v, ha, hv, rfl⟩
  · rintro ⟨a, v, ha, hv, rfl⟩
    simp only [ha, hv]

theorem storePhase_next {rt : Reg} {s t : State} : storePhase rt s = .next t ↔
    ∃ a m, s.aluResult = some a ∧
      memWrite s.params.alignCheck s.mem a .doubleword (s.readReg rt) = .ok m ∧
      t = { s with mem := m, microStep := .phase .memory } := by
  unfold storePhase
  constructor
  · intro h
    split at h
    · cases h
    · rename_i a ha
      split at h
      · cases h
      · rename_i m hm
        cases h
        exact ⟨a, m, ha, hm, rfl⟩
  · rintro ⟨a, m, ha, hm, rfl⟩
    simp only [ha, hm]

theorem writeBackPhase_next {r : Reg} {latch : Option Word} {s t : State} :
    writeBackPhase r latch s = .next t ↔
      ∃ v, latch = some v ∧ t = { s.writeReg r v with microStep := .phase .writeBack } := by
  unfold writeBackPhase
  constructor
  · intro h
    split at h
    · cases h
    · cases h
      exact ⟨_, rfl, rfl⟩
  · rintro ⟨v, rfl, rfl⟩
    rfl

theorem updatePCPhase_next {taken : Bool} {offset : Int} {s t : State} :
    updatePCPhase taken offset s = .next t ↔
      validTarget (pcTarget s.pc taken offset) = true ∧
        t = { s with
              pc := BitVec.ofInt 64 (pcTarget s.pc taken offset)
              ctrl := { s.ctrl with pcSrc := taken }
              microStep := .phase .updatePC } := by
  unfold updatePCPhase
  constructor
  · intro h
    split at h
    · rename_i hv
      cases h
      exact ⟨hv, rfl⟩
    · cases h
  · rintro ⟨hv, rfl⟩
    rw [if_pos hv]

theorem updatePCPhase_fault {taken : Bool} {offset : Int} {s : State} {f : Fault} :
    updatePCPhase taken offset s = .fault f ↔
      validTarget (pcTarget s.pc taken offset) = false ∧ f = .invalidPCError (pcTarget s.pc taken offset) := by
  unfold updatePCPhase
  constructor
  · intro h
    split at h
    · cases h
    · rename_i hv
      cases h
      exact ⟨by simpa using hv, rfl⟩
  · rintro ⟨hv, rfl⟩
    simp [hv, raise]

/-- A valid target is one `pc` can hold, and it is stored without wrapping. -/
theorem validTarget_iff {t : Int} : validTarget t = true ↔ 0 ≤ t ∧ t < 2 ^ 64 ∧ t % 4 = 0 := by
  simp [validTarget]

theorem toNat_ofInt_valid {t : Int} (h : validTarget t = true) : ((BitVec.ofInt 64 t).toNat : Int) = t := by
  obtain ⟨h0, h1, -⟩ := validTarget_iff.1 h
  rw [BitVec.toNat_ofInt]
  norm_num at h1 ⊢
  omega

end Sys2Proof.Laws
end

