-- ==== Sys2Proof/Laws/Registers.lean ====
section
/-! SUPPORT. What reading and writing a general register do (10_state.md R11). -/

namespace Sys2Proof.Laws

open Sys2Proof.Machine

/-- XZR has no storage to write. -/
theorem regsWrite_xzr (regs : Regs) (r : Reg) (v : Word) (h : ¬ r.val < 31) : Regs.write regs r v = regs := by
  simp [Regs.write, h]

/-- A cell after a write: the value written, or what it held. -/
theorem regsWrite_getElem (regs : Regs) (r : Reg) (v : Word) (k : Nat) (hk : k < 31) :
    (Regs.write regs r v)[k] = if r.val = k then v else regs[k] := by
  unfold Regs.write
  split
  · simp [Vector.getElem_set]
  · rename_i h
    have : r.val ≠ k := by omega
    simp [this]

/-- A register other than the one written reads as before. -/
theorem readReg_writeReg_ne (s : State) (r q : Reg) (v : Word) (h : q ≠ r) :
    (s.writeReg r v).readReg q = s.readReg q := by
  unfold State.readReg
  split
  · have : r.val ≠ q.val := fun e => h (Fin.ext e.symm)
    simp [regsWrite_getElem, this]
  · rfl

end Sys2Proof.Laws
end

