-- ==== Sys2Proof/Laws/Step.lean ====
section
/-! SUPPORT. Everything one call of step can answer (44_sequencer.md R145). -/

namespace Sys2Proof.Laws

open Sys2Proof.Machine

theorem select_completed {s : State} : select s = .completed ↔ s.completed = true := by
  unfold select
  split
  · simp_all
  · split
    · simp_all
    · split <;> simp_all

theorem select_perform {s t : State} {i : Instr} : select s = .perform i t ↔
    s.completed = false ∧ s.current = some i ∧ t = { s with instructionIndex := s.fetchIndex } := by
  unfold select State.current instrAt
  split
  · simp_all
  · cases hp : s.prog[s.fetchIndex]? with
    | none => simp_all
    | some e =>
      cases hd : decode e.word with
      | error err => simp_all
      | ok j =>
        simp_all only [Bool.not_eq_true, Selection.perform.injEq, Option.some.injEq, true_and]
        constructor
        · rintro ⟨rfl, rfl⟩
          exact ⟨rfl, rfl⟩
        · rintro ⟨rfl, rfl⟩
          exact ⟨rfl, rfl⟩

/-- A next state is the same state at completion, or the recorded result of one phase. -/
theorem step_next {s t : State} : step s = .next t ↔
    (s.completed = true ∧ t = s) ∨
    (s.completed = false ∧ ∃ i u, s.current = some i ∧
      exec i { s with instructionIndex := s.fetchIndex } = .next u ∧ t = record u) := by
  unfold step
  constructor
  · intro h
    split at h
    · rename_i hsel
      cases h
      exact .inl ⟨select_completed.1 hsel, rfl⟩
    · cases h
    · rename_i i v hsel
      obtain ⟨hn, hc, rfl⟩ := select_perform.1 hsel
      unfold recordNext at h
      split at h
      · rename_i u hu
        cases h
        exact .inr ⟨hn, i, u, hc, hu, rfl⟩
      · cases h
      · cases h
  · rintro (⟨hc, rfl⟩ | ⟨hn, i, u, hc, hu, rfl⟩)
    · rw [select_completed.2 hc]
    · simp only [select_perform.2 ⟨hn, hc, rfl⟩, hu, recordNext]

/-- A fault is the fault of the phase at work. -/
theorem step_fault {s : State} {f : Fault} : step s = .fault f ↔
    s.completed = false ∧ ∃ i, s.current = some i ∧
      exec i { s with instructionIndex := s.fetchIndex } = .fault f := by
  unfold step
  constructor
  · intro h
    split at h
    · cases h
    · cases h
    · rename_i i v hsel
      obtain ⟨hn, hc, rfl⟩ := select_perform.1 hsel
      unfold recordNext at h
      split at h
      · cases h
      · rename_i g hg
        cases h
        exact ⟨hn, i, hc, hg⟩
      · cases h
  · rintro ⟨hn, i, hc, hg⟩
    simp only [select_perform.2 ⟨hn, hc, rfl⟩, hg, recordNext]

end Sys2Proof.Laws
end

