-- ==== Sys2Proof/Tests/Slice0.lean ====
section
/-! SUPPORT. Tests: ill-formed terms, words written out from the spec's encodings, one-step tests on the
spec's test vectors (95_test_vectors.md), and a witness for the hypotheses of every obligation that has
some. Expected values are the spec's. -/

namespace Sys2Proof.Tests

open Sys2Proof Sys2Proof.Machine

/-! ## Well-formedness: each check refuses the value just past each end of its range -/

theorem test_addi_range : (Instr.addi 0 0 2048).wellFormed = false ∧ (Instr.addi 0 0 (-2049)).wellFormed = false ∧
    (Instr.addi 0 0 2047).wellFormed = true ∧ (Instr.addi 0 0 (-2048)).wellFormed = true := by decide
theorem test_subi_range : (Instr.subi 0 0 2048).wellFormed = false ∧ (Instr.subi 0 0 (-2049)).wellFormed = false ∧
    (Instr.subi 0 0 2047).wellFormed = true ∧ (Instr.subi 0 0 (-2048)).wellFormed = true := by decide
theorem test_ldur_range : (Instr.ldur 0 0 256).wellFormed = false ∧ (Instr.ldur 0 0 (-257)).wellFormed = false ∧
    (Instr.ldur 0 0 255).wellFormed = true ∧ (Instr.ldur 0 0 (-256)).wellFormed = true := by decide
theorem test_stur_range : (Instr.stur 0 0 256).wellFormed = false ∧ (Instr.stur 0 0 (-257)).wellFormed = false ∧
    (Instr.stur 0 0 255).wellFormed = true ∧ (Instr.stur 0 0 (-256)).wellFormed = true := by decide
theorem test_b_range : (Instr.b 33554432).wellFormed = false ∧ (Instr.b (-33554433)).wellFormed = false ∧
    (Instr.b 33554431).wellFormed = true ∧ (Instr.b (-33554432)).wellFormed = true := by decide
theorem test_cbz_range : (Instr.cbz 0 262144).wellFormed = false ∧ (Instr.cbz 0 (-262145)).wellFormed = false ∧
    (Instr.cbz 0 262143).wellFormed = true ∧ (Instr.cbz 0 (-262144)).wellFormed = true := by decide
theorem test_cbnz_range : (Instr.cbnz 0 262144).wellFormed = false ∧ (Instr.cbnz 0 (-262145)).wellFormed = false ∧
    (Instr.cbnz 0 262143).wellFormed = true ∧ (Instr.cbnz 0 (-262144)).wellFormed = true := by decide

/-! ## Decoding: words of R52 to R56 written out field by field, then the spec's words (VE) -/

/-- R format (R52): opcode, rm, shamt, rn, rd. Registers 21, 10, 31 show every bit of a field. -/
theorem test_decode_add : decode 0b10001011000_10101_000000_01010_11111#32 = .ok (.add 31 10 21) := by decide
theorem test_decode_sub : decode 0b11001011000_10101_000000_01010_11111#32 = .ok (.sub 31 10 21) := by decide
theorem test_decode_and : decode 0b10001010000_00001_000000_10000_01000#32 = .ok (.and 8 16 1) := by decide
theorem test_decode_orr : decode 0b10101010000_00001_000000_10000_01000#32 = .ok (.orr 8 16 1) := by decide
/-- I format (R53): opcode, imm12, rn, rd; imm12 = 0x801 is -2047. -/
theorem test_decode_addi : decode 0b1001000100_100000000001_00010_00001#32 = .ok (.addi 1 2 (-2047)) := by decide
theorem test_decode_subi : decode 0b1101000100_011111111110_00010_00001#32 = .ok (.subi 1 2 2046) := by decide
/-- D format (R54): opcode, imm9, two zero bits, rn, rt; imm9 = 0x1FD is -3. -/
theorem test_decode_ldur : decode 0b11111000010_111111101_00_00010_00001#32 = .ok (.ldur 1 2 (-3)) := by decide
theorem test_decode_stur : decode 0b11111000000_011111101_00_00010_00001#32 = .ok (.stur 1 2 253) := by decide
/-- B format (R55): opcode, imm26 in bytes. -/
theorem test_decode_b : decode 0b000101_11111111111111111111111100#32 = .ok (.b (-4)) := by decide
/-- CB format (R56): opcode, imm19 in instructions, rt. -/
theorem test_decode_cbz : decode 0b10110100_1000000000000000001_11110#32 = .ok (.cbz 30 (-262143)) := by decide
theorem test_decode_cbnz : decode 0b10110101_0111111111111111110_11110#32 = .ok (.cbnz 30 262142) := by decide

theorem test_words_r_i : decode 0x8B010022#32 = .ok (.add 2 1 1) ∧ decode 0x8B1F03FF#32 = .ok (.add 31 31 31) ∧
    decode 0xCB0700C5#32 = .ok (.sub 5 6 7) ∧ decode 0x8A1F03C0#32 = .ok (.and 0 30 31) ∧
    decode 0xAA0B0149#32 = .ok (.orr 9 10 11) ∧ decode 0x910193E1#32 = .ok (.addi 1 31 100) ∧
    decode 0x911FFC41#32 = .ok (.addi 1 2 2047) ∧ decode 0x912003E5#32 = .ok (.addi 5 31 (-2048)) ∧
    decode 0xD13FFC63#32 = .ok (.subi 3 3 (-1)) ∧ decode 0xD1000421#32 = .ok (.subi 1 1 1) := by decide
theorem test_words_d_b_cb : decode 0xF8400064#32 = .ok (.ldur 4 3 0) ∧ decode 0xF8500149#32 = .ok (.ldur 9 10 (-256)) ∧
    decode 0xF84FF149#32 = .ok (.ldur 9 10 255) ∧ decode 0xF8000061#32 = .ok (.stur 1 3 0) ∧
    decode 0xF80FF01F#32 = .ok (.stur 31 0 255) ∧ decode 0x14000000#32 = .ok (.b 0) ∧
    decode 0x15FFFFFC#32 = .ok (.b 33554428) ∧ decode 0x16000000#32 = .ok (.b (-33554432)) ∧
    decode 0xB47FFFFF#32 = .ok (.cbz 31 262143) ∧ decode 0xB580001E#32 = .ok (.cbnz 30 (-262144)) := by decide
/-- VE26 to VE31. -/
theorem test_words_refused : decode 0x00000000#32 = .error .undefinedWord ∧
    decode 0xFFFFFFFF#32 = .error .undefinedWord ∧ decode 0xD503201F#32 = .error .undefinedWord ∧
    decode 0x8B010422#32 = .error .reservedWord ∧ decode 0xF8400464#32 = .error .reservedWord ∧
    decode 0xEB010022#32 = .error .undefinedWord := by decide
theorem test_encode : encode (.subi 3 3 (-1)) = 0xD13FFC63#32 ∧ encode (.ldur 9 10 (-256)) = 0xF8500149#32 ∧
    encode (.b (-4)) = 0x17FFFFFC#32 ∧ encode (.cbz 1 (-1)) = 0xB4FFFFE1#32 := by decide
theorem test_table_word : decodeTableWord 32 0xF80FF01F = some (.stur 31 0 255) ∧ decodeTableWord 32 0 = none := by
  decide

/-! ## States for the tests -/

/-- A state with `pc` 8, some registers set, alignment checked, in a given phase. -/
def machine (m : MicroStep) (regs : List (Reg × Word)) : State :=
  { State.reset with
    regs := regs.foldl (fun r p => Regs.write r p.1 p.2) State.reset.regs
    pc := 8#64
    microStep := m
    params := { alignCheck := true, histMax := 50 } }

/-- The same with `aluResult` latched. -/
def latched (m : MicroStep) (a : Word) (regs : List (Reg × Word)) (mem : Memory) : State :=
  { machine m regs with aluResult := some a, mem := mem }

/-- The pattern EF CD AB 89 67 45 23 01 at 0x100 (95_test_vectors.md). -/
def pattern : Memory :=
  [(0x100, 0xEF#8), (0x101, 0xCD#8), (0x102, 0xAB#8), (0x103, 0x89#8), (0x104, 0x67#8), (0x105, 0x45#8),
    (0x106, 0x23#8), (0x107, 0x01#8)]

/-- `aluResult` and the flags after one phase. -/
def aluOf (r : Result) : Option (Option Word × Flags) := (nextOf r).map (fun t => (t.aluResult, t.flags))

/-! ## One phase of one instruction, on the spec's vectors -/

/-- VA2: the sum wraps, the flags are not written. -/
theorem test_add_wraps : aluOf (exec (.add 3 1 2) (machine (.phase .decode) [(1, 0xFFFFFFFFFFFFFFFF#64), (2, 1#64)]))
    = some (some 0#64, Flags.clear) := by decide
/-- VA5: a write to XZR changes no register. -/
theorem test_add_to_xzr : (nextOf (exec (.add 31 1 2) (latched (.phase .memory) 11#64 [(1, 5#64)] []))).map (·.regs)
    = some (machine .idle [(1, 5#64)]).regs := by decide
/-- VA8. -/
theorem test_sub_borrows : aluOf (exec (.sub 3 1 2) (machine (.phase .decode) [(2, 1#64)]))
    = some (some 0xFFFFFFFFFFFFFFFF#64, Flags.clear) := by decide
/-- VA7: rd, not rn or rm, is written. -/
theorem test_sub_writes_rd : (nextOf (exec (.sub 3 1 2) (latched (.phase .memory) 2#64 [(1, 5#64), (2, 3#64)] []))).map
    (·.regs) = some (machine .idle [(1, 5#64), (2, 3#64), (3, 2#64)]).regs := by decide
/-- VA12. -/
theorem test_and : aluOf (exec (.and 3 1 2)
    (machine (.phase .decode) [(1, 0xFF00FF00FF00FF00#64), (2, 0x0FF00FF00FF00FF0#64)]))
    = some (some 0x0F000F000F000F00#64, Flags.clear) := by decide
/-- VA14. -/
theorem test_orr : aluOf (exec (.orr 3 1 2)
    (machine (.phase .decode) [(1, 0xFF00FF00FF00FF00#64), (2, 0x0FF00FF00FF00FF0#64)]))
    = some (some 0xFFF0FFF0FFF0FFF0#64, Flags.clear) := by decide
/-- VI2: the immediate is sign-extended. -/
theorem test_addi_sign : aluOf (exec (.addi 1 2 (-2048)) (machine (.phase .decode) []))
    = some (some 0xFFFFFFFFFFFFF800#64, Flags.clear) := by decide
/-- VI3. -/
theorem test_addi_same : (nextOf (exec (.addi 1 1 (-1)) (latched (.phase .memory) 0xFFFFFFFFFFFFFFFF#64 [] []))).map
    (fun t => t.readReg 1) = some 0xFFFFFFFFFFFFFFFF#64 := by decide
/-- VI6. -/
theorem test_subi_negative : aluOf (exec (.subi 3 3 (-1)) (machine (.phase .decode) [(3, 10#64)]))
    = some (some 11#64, Flags.clear) := by decide
/-- VI9. -/
theorem test_subi_sign : aluOf (exec (.subi 1 2 (-2048)) (machine (.phase .decode) [(2, 0x7FFFFFFFFFFFF800#64)]))
    = some (some 0x8000000000000000#64, Flags.clear) := by decide
/-- VL1, the Memory phase. -/
theorem test_ldur : (nextOf (exec (.ldur 9 10 0) (latched (.phase .execute) 0x100#64 [] pattern))).map (·.memData)
    = some (some 0x0123456789ABCDEF#64) := by decide
/-- VL5: the misaligned access faults under ALIGN_CHECK. -/
theorem test_ldur_misaligned : faultOf (exec (.ldur 9 10 3) (latched (.phase .execute) 0x103#64 [] pattern))
    = some (.memoryAccessError 0x103#64) := by decide
/-- VT1, the Memory phase: the bytes at 0x40 to 0x47. -/
theorem test_stur : (nextOf (exec (.stur 1 2 0) (latched (.phase .execute) 0x40#64 [(1, 0x0123456789ABCDEF#64)] []))).map
    (·.mem) = some [(0x40, 0xEF#8), (0x41, 0xCD#8), (0x42, 0xAB#8), (0x43, 0x89#8), (0x44, 0x67#8),
      (0x45, 0x45#8), (0x46, 0x23#8), (0x47, 0x01#8)] := by decide
/-- VT6: running past the top of the address space. -/
theorem test_stur_top : faultOf (exec (.stur 1 2 0)
    { latched (.phase .execute) 0xFFFFFFFFFFFFFFF9#64 [(1, 5#64)] [] with params := { alignCheck := false, histMax := 50 } })
    = some (.memoryAccessError 0xFFFFFFFFFFFFFFF9#64) := by decide
/-- VB3. -/
theorem test_b_back : (nextOf (exec (.b (-12)) (machine (.phase .writeBack) []))).map (fun t => (t.pc, t.ctrl.pcSrc))
    = some (0#64, true) := by decide
/-- VB4. -/
theorem test_b_invalid : faultOf (exec (.b (-16)) (machine (.phase .writeBack) [])) = some (.invalidPCError (-4)) := by
  decide
/-- VZ3: flags N-C-. -/
theorem test_cbz_flags : aluOf (exec (.cbz 1 2) (machine (.phase .decode) [(1, 0x8000000000000000#64)]))
    = some (some 0x8000000000000000#64, { n := true, z := false, c := true, v := false }) := by decide
/-- VZ1 and VZ4: the test is on all 64 bits. -/
theorem test_cbz_taken : (nextOf (exec (.cbz 1 2) (machine (.phase .writeBack) []))).map (·.pc) = some 20#64 ∧
    (nextOf (exec (.cbz 1 2) (machine (.phase .writeBack) [(1, 0x100000000#64)]))).map (·.pc) = some 12#64 := by decide
/-- VZ8: flags -ZC-. -/
theorem test_cbnz_flags : aluOf (exec (.cbnz 1 2) (machine (.phase .decode) []))
    = some (some 0#64, { n := false, z := true, c := true, v := false }) := by decide
/-- VZ10 and VZ11. -/
theorem test_cbnz_taken : (nextOf (exec (.cbnz 1 (-1)) (machine (.phase .writeBack) [(1, 0xFFFFFFFFFFFFFFFF#64)]))).map
    (·.pc) = some 8#64 ∧ (nextOf (exec (.cbnz 31 5) (machine (.phase .writeBack) []))).map (·.pc) = some 12#64 := by
  decide

/-- VU3, VU5, VU11: C and V are of the low halves. -/
theorem test_flags : (compute 0xFFFFFFFF#64 1#64 .add).flags = { n := false, z := false, c := true, v := false } ∧
    (compute 0x7FFFFFFFFFFFFFFF#64 1#64 .add).flags = { n := true, z := false, c := true, v := false } ∧
    (compute 0x100000000#64 1#64 .sub).flags = { n := false, z := false, c := false, v := false } ∧
    (compute 0x80000000#64 1#64 .sub).flags = { n := false, z := false, c := true, v := true } := by decide

/-- The host's placing of a word: the first step after reset performs its Fetch phase. -/
theorem test_first_step : (nextOf (step (State.reset.withFetchWord 32 0x8B010022))).map
    (fun t => (t.microStep, t.instructionIndex, t.hist.length)) = some (.phase .fetch, 0, 1) := by decide

/-! ## The assembler -/

/-- R70, R76: a comment line, a blank line, small letters; B's literal counts instructions. -/
theorem test_assemble : (assemble "// c\n\nb #-1 // x\nLDUR X9, [X10, #-256]".toList).toOption.map
    (·.map (fun e => (e.word, e.line))) = some [(0x17FFFFFC#32, 3), (0xF8500149#32, 4)] := by decide
/-- R75: the first immediates out of range. -/
theorem test_assemble_range : (assemble "ADDI X1, X2, #2048".toList).toOption = none ∧
    (assemble "B #8388608".toList).toOption = none ∧ (assemble "STUR X1, [X2, #-257]".toList).toOption = none := by
  decide
/-- R73, R77: an error names the line and the reason. -/
theorem test_assemble_error : (match assemble "ADD X1, X2, X3\nSUB X1, X32, X3".toList with
    | .ok _ => none
    | .error e => some (e.line, e.reason)) = some (2, .invalidRegister) := by decide

/-! ## Witnesses: states and operands that meet the hypotheses of the obligations

For a statement named X the theorems are `witness_X…`; each gives values that meet all hypotheses of X
(or of one of its clauses) together, at the ends of their ranges. -/

/-- `n` phases of `i`, computed. -/
def phases (i : Instr) : Nat → State → Option State
  | 0, s => some s
  | n + 1, s =>
    match exec i s with
    | .next t => phases i n t
    | .fault _ => none
    | .refused _ => none

theorem chain_of_phases {i : Instr} {n : Nat} {s t : State} (h : phases i n s = some t) : ExecChain i n s t := by
  induction n generalizing s with
  | zero => exact Option.some.inj h
  | succ n ih =>
    unfold phases at h
    cases he : exec i s with
    | next u =>
      rw [he] at h
      exact ⟨u, he, ih h⟩
    | fault f => simp [he] at h
    | refused r => simp [he] at h

theorem chain_exists {i : Instr} {n : Nat} {s : State} (h : (phases i n s).isSome = true) : ∃ t, ExecChain i n s t :=
  (Option.isSome_iff_exists.1 h).imp fun _ ht => chain_of_phases ht

/-- `n` performed steps, computed. -/
def steps : Nat → State → Option State
  | 0, s => some s
  | n + 1, s =>
    if s.completed then none
    else
      match step s with
      | .next t => steps n t
      | .fault _ => none
      | .refused _ => none

theorem chain_of_steps {n : Nat} {s t : State} (h : steps n s = some t) : StepChain n s t := by
  induction n generalizing s with
  | zero => exact Option.some.inj h
  | succ n ih =>
    unfold steps at h
    cases hc : s.completed with
    | true => simp [hc] at h
    | false =>
      simp only [hc, Bool.false_eq_true, if_false] at h
      cases he : step s with
      | next u =>
        rw [he] at h
        exact ⟨hc, u, he, ih h⟩
      | fault f => simp [he] at h
      | refused r => simp [he] at h

theorem steps_exists {n : Nat} {s : State} (h : (steps n s).isSome = true) : ∃ t, StepChain n s t :=
  (Option.isSome_iff_exists.1 h).imp fun _ ht => chain_of_steps ht

theorem next_of_nextOf {r : Result} (h : (nextOf r).isSome = true) : ∃ t, r = .next t := by
  cases r with
  | next t => exact ⟨t, rfl⟩
  | fault f => exact absurd h (by simp [nextOf])
  | refused e => exact absurd h (by simp [nextOf])

theorem fault_of_faultOf {r : Result} {f : Fault} (h : faultOf r = some f) : r = .fault f := by
  cases r with
  | next t => exact absurd h (by simp [faultOf])
  | fault g => exact congrArg _ (Option.some.inj h)
  | refused e => exact absurd h (by simp [faultOf])

/-- An instruction boundary with `pc` as given and the alignment of accesses checked. -/
def boundaryAt (pc : Word) (regs : List (Reg × Word)) : State := { machine .idle regs with pc := pc }

/-- The greatest aligned `pc` whose successor is in range. -/
def lastPC : Word := 0xFFFFFFFFFFFFFFF8#64

/-! ### Encoding and the ALU -/

theorem witness_DecodeInvertsEncode : (Instr.addi 31 0 (-2048)).wellFormed = true ∧ (Instr.cbnz 0 262143).wellFormed = true ∧
    decode 0x16000000#32 = .ok (.b (-33554432)) := by decide
theorem witness_FieldExtractionOfEncodings : (Instr.add 31 0 31).wellFormed = true ∧ (Instr.subi 0 31 2047).wellFormed = true ∧
    (Instr.ldur 1 2 (-256)).wellFormed = true ∧ (Instr.b 33554431).wellFormed = true ∧
    (Instr.cbz 31 (-262144)).wellFormed = true := by decide
/-- One word of each class the statement tells apart. -/
theorem witness_AdmissibleWordsAreCanonical : kindOf 0xB4000000#32 = some .cbz ∧ kindOf 0x00000000#32 = none ∧
    kindOf 0x8B010422#32 = some .add ∧ kindOf 0xF8400464#32 = some .ldur := by decide
theorem witness_StepRefusesInadmissibleWords :
    (State.reset.withFetchWord 32 0x00000000).completed = false ∧
    (State.reset.withFetchWord 32 0x00000000).prog[(State.reset.withFetchWord 32 0x00000000).fetchIndex]?
      = some { word := 0#32, line := 1 } ∧
    decode 0#32 = .error .undefinedWord := by decide
theorem witness_StepRefusesInadmissibleWords_reserved :
    (State.reset.withFetchWord 32 0x8B010422).completed = false ∧
    (State.reset.withFetchWord 32 0x8B010422).prog[(State.reset.withFetchWord 32 0x8B010422).fetchIndex]?
      = some { word := 0x8B010422#32, line := 1 } ∧
    decode 0x8B010422#32 = .error .reservedWord := by decide
theorem witness_AddiOfNegatedImmediateIsSubi :
    (∃ t, ExecChain (.addi 31 1 (- -2047)) 6 (boundaryAt lastPC [(1, 5#64)]) t) ∧
    (∃ u, ExecChain (.subi 31 1 (-2047)) 6 (boundaryAt lastPC [(1, 5#64)]) u) ∧
    (∃ t, ExecChain (.addi 1 1 (-2047)) 6 (boundaryAt 0#64 [(1, 5#64)]) t) ∧
    (∃ u, ExecChain (.subi 1 1 2047) 6 (boundaryAt 0#64 [(1, 5#64)]) u) ∧
    (boundaryAt lastPC [(1, 5#64)]).atBoundary = true ∧ (boundaryAt 0#64 [(1, 5#64)]).atBoundary = true :=
  ⟨chain_exists (by decide), chain_exists (by decide), chain_exists (by decide), chain_exists (by decide), by decide,
    by decide⟩

/-! ### Memory -/

/-- The highest admitted doubleword and byte. -/
theorem witness_DataMemoryRoundTrip : Memory.wf pattern = true ∧
    (memWrite true pattern 0xFFFFFFFFFFFFFFF8#64 .doubleword 0xFFFFFFFFFFFFFFFF#64).isOk = true ∧
    (memWrite true pattern 0xFFFFFFFFFFFFFFFF#64 .byte 0x1FF#64).isOk = true ∧
    (memWrite false pattern 0x101#64 .half 0#64).isOk = true ∧ (memWrite false pattern 0x103#64 .word 0#64).isOk = true := by
  decide
theorem witness_StoredBytesLittleEndian : Memory.wf pattern = true ∧
    (memWrite true pattern 0xFFFFFFFFFFFFFFF8#64 .doubleword 0x0123456789ABCDEF#64).isOk = true ∧
    7 < AccessWidth.doubleword.bytes ∧ (0x107 : Nat) < (0xFFFFFFFFFFFFFFF8#64 : Word).toNat := by decide
theorem witness_LoadedValueIsByteSum : memRead true pattern 0x100#64 .doubleword = .ok 0x0123456789ABCDEF#64 ∧
    memRead true pattern 0xFFFFFFFFFFFFFFFF#64 .byte = .ok 0#64 := by decide
/-- Each clause at the first value past its range, and the last value inside. -/
theorem witness_AccessFaultConditions :
    memRead true [] 0x101#64 .half = .error (.memoryAccessError 0x101#64) ∧
    memRead true [] 0x101#64 .byte = .ok 0#64 ∧ memRead false [] 0x101#64 .half = .ok 0#64 ∧
    memRead false [] 0xFFFFFFFFFFFFFFF9#64 .doubleword = .error (.memoryAccessError 0xFFFFFFFFFFFFFFF9#64) ∧
    memRead true [] 0xFFFFFFFFFFFFFFF8#64 .doubleword = .ok 0#64 := by decide

/-! ### Phases -/

theorem witness_FetchAndDecodePhases : (machine .idle []).atBoundary = true ∧
    (machine (.phase .updatePC) []).atBoundary = true ∧ (machine (.phase .fetch) []).microStep = .phase .fetch := by decide
theorem witness_ExecutePhaseOfEveryKind : (machine (.phase .decode) []).microStep = .phase .decode := by decide
theorem witness_MemoryPhaseOfEveryKind : (latched (.phase .execute) lastPC [] []).microStep = .phase .execute ∧
    (latched (.phase .execute) lastPC [] []).aluResult = some 0xFFFFFFFFFFFFFFF8#64 ∧
    ¬ badDoubleword true 0xFFFFFFFFFFFFFFF8#64 ∧ badDoubleword true 0x101#64 ∧
    badDoubleword false 0xFFFFFFFFFFFFFFF9#64 ∧ (Instr.b 0).kind ≠ .ldur ∧ (Instr.b 0).kind ≠ .stur := by
  unfold badDoubleword
  decide
theorem witness_WriteBackPhaseOfEveryKind : (latched (.phase .memory) 7#64 [] []).microStep = .phase .memory ∧
    (latched (.phase .memory) 7#64 [] []).aluResult = some 7#64 ∧
    ({ machine (.phase .memory) [] with memData := some 7#64 } : State).memData = some 7#64 := by decide
/-- Targets -4, 2^64 and 14 are refused; 0 and 2^64 - 4 are not. -/
theorem witness_UpdatePCPhaseOfEveryKind : (machine (.phase .writeBack) []).microStep = .phase .writeBack ∧
    badTarget (nextPC (.b (-16)) (machine (.phase .writeBack) [])) ∧
    badTarget (nextPC (.b 2) (machine (.phase .writeBack) [])) ∧
    badTarget (nextPC (.b 0) { machine (.phase .writeBack) [] with pc := 0xFFFFFFFFFFFFFFFC#64 }) ∧
    ¬ badTarget (nextPC (.b (-12)) (machine (.phase .writeBack) [])) ∧
    ¬ badTarget (nextPC (.b 0) { machine (.phase .writeBack) [] with pc := lastPC }) := by
  unfold badTarget
  decide

/-! ### Completion -/

theorem witness_AddCompletes : (boundaryAt lastPC []).atBoundary = true ∧ (boundaryAt lastPC []).pc.toNat % 4 = 0 ∧
    (boundaryAt lastPC []).pc.toNat + 4 < 2 ^ 64 := by decide
theorem witness_SubCompletes : (machine .idle [(1, 5#64)]).atBoundary = true ∧
    (machine .idle [(1, 5#64)]).pc.toNat % 4 = 0 ∧ (machine .idle [(1, 5#64)]).pc.toNat + 4 < 2 ^ 64 := by decide
theorem witness_AndCompletes : (machine (.phase .updatePC) []).atBoundary = true ∧
    (machine (.phase .updatePC) []).pc.toNat % 4 = 0 ∧ (machine (.phase .updatePC) []).pc.toNat + 4 < 2 ^ 64 := by decide
theorem witness_OrrCompletes : (boundaryAt 0#64 []).atBoundary = true ∧ (boundaryAt 0#64 []).pc.toNat % 4 = 0 ∧
    (boundaryAt 0#64 []).pc.toNat + 4 < 2 ^ 64 := by decide
theorem witness_AddiCompletes : (boundaryAt lastPC []).atBoundary = true ∧ (boundaryAt lastPC []).pc.toNat % 4 = 0 ∧
    (boundaryAt lastPC []).pc.toNat + 4 < 2 ^ 64 := by decide
theorem witness_SubiCompletes : (boundaryAt 0#64 []).atBoundary = true ∧ (boundaryAt 0#64 []).pc.toNat % 4 = 0 ∧
    (boundaryAt 0#64 []).pc.toNat + 4 < 2 ^ 64 := by decide
/-- The highest doubleword, under ALIGN_CHECK. -/
theorem witness_LdurCompletes : (boundaryAt lastPC []).atBoundary = true ∧ (boundaryAt lastPC []).pc.toNat % 4 = 0 ∧
    (boundaryAt lastPC []).pc.toNat + 4 < 2 ^ 64 ∧ (boundaryAt lastPC []).params.alignCheck = true ∧
    ¬ badDoubleword (boundaryAt lastPC []).params.alignCheck (effectiveAddress (boundaryAt lastPC []) 31 (-8)) := by
  unfold badDoubleword
  decide
theorem witness_SturCompletes : (boundaryAt 0#64 [(2, 0x40#64)]).atBoundary = true ∧
    (boundaryAt 0#64 [(2, 0x40#64)]).pc.toNat % 4 = 0 ∧ (boundaryAt 0#64 [(2, 0x40#64)]).pc.toNat + 4 < 2 ^ 64 ∧
    ¬ badDoubleword (boundaryAt 0#64 [(2, 0x40#64)]).params.alignCheck
      (effectiveAddress (boundaryAt 0#64 [(2, 0x40#64)]) 2 (-64)) := by
  unfold badDoubleword
  decide
/-- Both ends of the targets `pc` can hold. -/
theorem witness_BranchCompletes : (machine .idle []).atBoundary = true ∧ (boundaryAt lastPC []).atBoundary = true ∧
    ¬ badTarget ((machine .idle []).pc.toNat + 4 + (-12)) ∧ ¬ badTarget ((boundaryAt lastPC []).pc.toNat + 4 + 0) := by
  unfold badTarget
  decide
/-- Taken and not taken. -/
theorem witness_CbzCompletes : (machine .idle [(1, 1#64)]).atBoundary = true ∧
    ¬ badTarget ((machine .idle [(1, 1#64)]).pc.toNat + 4 +
      (if (machine .idle [(1, 1#64)]).readReg 31 = 0#64 then 4 * (-3) else 0)) ∧
    ¬ badTarget ((machine .idle [(1, 1#64)]).pc.toNat + 4 +
      (if (machine .idle [(1, 1#64)]).readReg 1 = 0#64 then 4 * (-4) else 0)) := by
  unfold badTarget
  decide
theorem witness_CbnzCompletes : (machine .idle [(1, 1#64)]).atBoundary = true ∧
    ¬ badTarget ((machine .idle [(1, 1#64)]).pc.toNat + 4 +
      (if (machine .idle [(1, 1#64)]).readReg 1 ≠ 0#64 then 4 * (-3) else 0)) ∧
    ¬ badTarget ((machine .idle [(1, 1#64)]).pc.toNat + 4 +
      (if (machine .idle [(1, 1#64)]).readReg 31 ≠ 0#64 then 4 * (-4) else 0)) := by
  unfold badTarget
  decide

/-! ### Faults -/

/-- A misaligned address, and the first address past the top. -/
theorem witness_LoadAndStoreFaults : (boundaryAt 0#64 []).atBoundary = true ∧
    badDoubleword (boundaryAt 0#64 []).params.alignCheck (effectiveAddress (boundaryAt 0#64 []) 31 4) ∧
    badDoubleword false (effectiveAddress (boundaryAt 0#64 []) 31 (-7)) := by
  unfold badDoubleword
  decide
theorem witness_BranchTargetFaults : (machine .idle [(1, 1#64)]).atBoundary = true ∧
    badTarget ((machine .idle [(1, 1#64)]).pc.toNat + 4 + (-16)) ∧
    (machine .idle [(1, 1#64)]).readReg 31 = 0#64 ∧ badTarget ((machine .idle [(1, 1#64)]).pc.toNat + 4 + 4 * (-4)) ∧
    (machine .idle [(1, 1#64)]).readReg 1 ≠ 0#64 ∧
    badTarget ((boundaryAt lastPC [(1, 1#64)]).pc.toNat + 4 + 4 * 1) := by
  unfold badTarget
  decide
/-- Each of the two faults is raised somewhere. -/
theorem witness_FaultSources :
    exec (.ldur 9 10 3) (latched (.phase .execute) 0x103#64 [] pattern) = .fault (.memoryAccessError 0x103#64) ∧
    exec (.b (-16)) (machine (.phase .writeBack) []) = .fault (.invalidPCError (-4)) :=
  ⟨fault_of_faultOf (by decide), fault_of_faultOf (by decide)⟩

/-! ### Frames -/

/-- ADD writes back; STUR stores. -/
theorem witness_RegisterFrame : ∃ t, exec (.add 3 1 2) (latched (.phase .memory) 7#64 [] []) = .next t :=
  next_of_nextOf (by decide)
theorem witness_RegisterFrame_othersPhases : ∃ t, exec (.stur 3 1 0) (machine (.phase .memory) []) = .next t :=
  next_of_nextOf (by decide)
theorem witness_MemoryFrame : (latched (.phase .execute) lastPC [] pattern).mem.wf = true ∧
    (latched (.phase .execute) lastPC [] pattern).aluResult = some lastPC ∧ (0x107 : Nat) < lastPC.toNat ∧
    ∃ t, exec (.stur 1 2 0) (latched (.phase .execute) lastPC [] pattern) = .next t :=
  ⟨by decide, by decide, by decide, next_of_nextOf (by decide)⟩
theorem witness_StoreInstructionFrame : (boundaryAt 0#64 [(2, 0x100#64)]).atBoundary = true ∧
    (boundaryAt 0#64 [(2, 0x100#64)]).mem.wf = true ∧
    (∃ t, ExecChain (.stur 1 2 (-256)) 6 (boundaryAt 0#64 [(2, 0x100#64)]) t) ∧
    (∃ t, ExecChain (.stur 1 31 (-8)) 6 (boundaryAt 0#64 [(2, 0x100#64)]) t) :=
  ⟨by decide, by decide, chain_exists (by decide), chain_exists (by decide)⟩
theorem witness_FlagsFrame : (machine (.phase .decode) []).ctrl.flagWrite = false ∧
    (∃ t, exec (.cbz 1 0) (machine (.phase .decode) []) = .next t) ∧
    ∃ t, exec (.add 1 2 3) (machine (.phase .decode) []) = .next t :=
  ⟨by decide, next_of_nextOf (by decide), next_of_nextOf (by decide)⟩
theorem witness_SequencerFrame : (∃ t, exec (.b 0) (machine .idle []) = .next t) ∧
    ∃ t, exec (.b 0) (machine (.phase .decode) []) = .next t :=
  ⟨next_of_nextOf (by decide), next_of_nextOf (by decide)⟩

/-! ### Steps -/

/-- A program of `ADDI X1, XZR, #100` and `STUR X1, [X3, #0]`, loaded and not started. -/
def loaded : State :=
  { machine .idle [] with
    pc := 0#64
    prog := [{ word := 0x910193E1#32, line := 1 }, { word := 0xF8000061#32, line := 3 }] }

theorem witness_StepRunsDecodedInstruction : loaded.completed = false ∧
    loaded.prog[if loaded.atBoundary then loaded.pc.toNat / 4 else loaded.instructionIndex]?
      = some { word := 0x910193E1#32, line := 1 } ∧
    decode 0x910193E1#32 = .ok (.addi 1 31 100) := by decide
/-- Both sides of the equivalence hold somewhere: at `pc / 4 = N`, and not one before. -/
theorem witness_CompletionIsTheOnlyStandstill : ({ loaded with pc := 8#64 } : State).completed = true ∧
    ({ loaded with pc := 4#64 } : State).completed = false := by decide
theorem witness_StepCycle : loaded.atBoundary = true ∧ loaded.completed = false ∧ (∃ t, StepChain (5 + 1) loaded t) ∧
    ∃ t, StepChain 7 loaded t :=
  ⟨by decide, by decide, steps_exists (by decide), steps_exists (by decide)⟩
/-- An instruction that completes. -/
theorem witness_PhasesMeetInstructionLevel : loaded.atBoundary = true ∧ loaded.completed = false ∧
    loaded.current = some (.addi 1 31 100) ∧
    (instructionLevel loaded.params.alignCheck (.addi 1 31 100) loaded.arch).isOk = true := by decide

/-- A program of `LDUR X1, [XZR, #3]` alone, whose access is refused under ALIGN_CHECK. -/
def loadedFaulting : State := { loaded with prog := [{ word := 0xF84033E1#32, line := 1 }] }

/-- An instruction that faults, selected by the state. -/
theorem witness_PhasesMeetInstructionLevel_fault : loadedFaulting.atBoundary = true ∧
    loadedFaulting.completed = false ∧ loadedFaulting.current = some (.ldur 1 31 3) ∧
    (match instructionLevel loadedFaulting.params.alignCheck (.ldur 1 31 3) loadedFaulting.arch with
      | .ok _ => none
      | .error f => some f) = some (.memoryAccessError 3#64) := by decide
theorem witness_StepNeverWritesProgram : ∃ t, step loaded = .next t := next_of_nextOf (by decide)

/-- R171: the view gives each instruction's fields, and no snapshot before the first phase. -/
theorem test_view : loaded.view = {
    snapshot := none
    instructions :=
      [some { opcode := 0x244, rd := some 1, rs1 := some 31, rs2 := none, immediate := some 100, shamt := none, format := .i },
        some { opcode := 0x7C0, rd := some 1, rs1 := some 3, rs2 := none, immediate := some 0, shamt := none, format := .d }] } :=
  by decide

/-! ### The invariant -/

/-- The branch `B #-4` at address 8, just before its UpdatePC phase. -/
def branching : State :=
  { machine (.phase .writeBack) [] with
    instructionIndex := 2
    ctrl := controlSignals .b
    prog := [noOperationEntry 1, noOperationEntry 2, { word := 0x17FFFFF0#32, line := 3 }] }

theorem branching_inv : branching.Inv where
  engine :=
    { mem_wf := by decide
      mem_bounded := by decide
      pc_aligned := by decide
      flagWrite_false := by decide
      index_of_pc := fun _ => by decide
      ctrl_fetch := fun h => absurd h (by decide)
      ctrl_decoded := fun i _ _ h => by
        have hi : instrAt branching.prog branching.snapshot.instructionIndex = some (.b (-16)) := by decide
        rw [hi] at h
        cases h
        rfl
      alu_latch := fun _ h => absurd h (by decide)
      mem_latch := fun _ h => absurd h (by decide) }
  prog_short := by decide
  prog_admissible := by decide
  histMax_pos := by decide
  hist_bounded := by decide
  hist_sound := fun _ h => by cases h
  cursor_none := fun _ => rfl
  cursor_here := fun _ h => by cases h
  bp_rising := by decide
  bp_positive := by decide

theorem witness_OnlyBranchesRaiseInvalidPC : branching.Inv ∧ step branching = .fault (.invalidPCError (-4)) :=
  ⟨branching_inv, fault_of_faultOf (by decide)⟩

/-- Two snapshots of `loaded`'s first instruction: after its Fetch and after its Decode phase. -/
def fetched : Snapshot := { loaded.snapshot with microStep := .phase .fetch }
def decoded : Snapshot := { loaded.snapshot with microStep := .phase .decode, ctrl := controlSignals .addi }

/-- `loaded` after two steps and, for `c = 0`, one `undo`. -/
def ring (c : Nat) (e : Snapshot) : State := { loaded.restore e with hist := [fetched, decoded], cur := some c }

theorem fetched_inv : EngineInv loaded.prog fetched where
  mem_wf := by decide
  mem_bounded := by decide
  pc_aligned := by decide
  flagWrite_false := by decide
  index_of_pc := fun _ => by decide
  ctrl_fetch := fun _ => by decide
  ctrl_decoded := fun _ _ h => absurd rfl h
  alu_latch := fun _ h => absurd h (by decide)
  mem_latch := fun _ h => absurd h (by decide)

theorem decoded_inv : EngineInv loaded.prog decoded where
  mem_wf := by decide
  mem_bounded := by decide
  pc_aligned := by decide
  flagWrite_false := by decide
  index_of_pc := fun _ => by decide
  ctrl_fetch := fun h => absurd h (by decide)
  ctrl_decoded := fun i _ _ h => by
    have hi : instrAt loaded.prog decoded.instructionIndex = some (.addi 1 31 100) := by decide
    rw [hi] at h
    cases h
    rfl
  alu_latch := fun _ h => absurd h (by decide)
  mem_latch := fun _ h => absurd h (by decide)

theorem ring_inv {c : Nat} {e : Snapshot} (he : EngineInv loaded.prog e) (hc : [fetched, decoded][c]? = some e) :
    (ring c e).Inv where
  engine := he
  prog_short := by show loaded.prog.length < _; decide
  prog_admissible := by show ∀ e ∈ loaded.prog, _; decide
  histMax_pos := by show 1 ≤ loaded.params.histMax; decide
  hist_bounded := by show 2 ≤ loaded.params.histMax; decide
  hist_sound := fun x hx => by
    have hx : x ∈ [fetched, decoded] := hx
    simp only [List.mem_cons, List.not_mem_nil, or_false] at hx
    obtain rfl | rfl := hx
    · exact ⟨fetched_inv, by decide⟩
    · exact ⟨decoded_inv, by decide⟩
  cursor_none := fun h => by cases h
  cursor_here := fun d h => by
    cases h
    exact hc
  bp_rising := by show loaded.bp.Pairwise _; decide
  bp_positive := by show ∀ l ∈ loaded.bp, _; decide

/-- R171: the exposed snapshot is the one at the cursor. -/
theorem test_view_snapshot : (ring 1 decoded).view.snapshot = some decoded ∧
    (ring 0 fetched).view.snapshot = some fetched := by decide

theorem witness_StepKeepsInvariant : (ring 1 decoded).Inv ∧ ∃ t, step (ring 1 decoded) = .next t :=
  ⟨ring_inv decoded_inv rfl, next_of_nextOf (by decide)⟩
theorem witness_InvariantExcludesRefusal : branching.Inv ∧ (ring 0 fetched).Inv := ⟨branching_inv, ring_inv fetched_inv rfl⟩
theorem witness_CommandsKeepInvariant : branching.Inv ∧ (ring 0 fetched).Inv := ⟨branching_inv, ring_inv fetched_inv rfl⟩

/-! ### History and commands -/

/-- A phase with a redo tail to drop, and one in a ring that is full. -/
theorem witness_StepRecordsSnapshot : (ring 0 fetched).completed = false ∧ (∃ t, step (ring 0 fetched) = .next t) ∧
    [fetched] = (match (ring 0 fetched).cur with
      | none => (ring 0 fetched).hist
      | some c => (ring 0 fetched).hist.take (c + 1)) ∧
    1 ≤ (ring 0 fetched).params.histMax ∧
    (∃ t, step { ring 1 decoded with params := { alignCheck := true, histMax := 2 } } = .next t) :=
  ⟨by decide, next_of_nextOf (by decide), by decide, by decide, next_of_nextOf (by decide)⟩
theorem witness_UndoTakesBackOneStep : (ring 1 decoded).Inv ∧ (ring 1 decoded).hist ≠ [] ∧
    2 ≤ (ring 1 decoded).params.histMax ∧ (ring 1 decoded).completed = false ∧ ∃ t, step (ring 1 decoded) = .next t :=
  ⟨ring_inv decoded_inv rfl, by decide, by decide, by decide, next_of_nextOf (by decide)⟩
/-- An `undo` and a `redo` that succeed; at the other ends both answer none. -/
theorem witness_RedoUndoesUndo : (ring 1 decoded).Inv ∧ (ring 0 fetched).Inv ∧
    (undo (ring 1 decoded)).1 = some fetched ∧ (redo (ring 0 fetched)).1 = some decoded ∧
    (undo (ring 0 fetched)).1 = none ∧ (redo (ring 1 decoded)).1 = none :=
  ⟨ring_inv decoded_inv rfl, ring_inv fetched_inv rfl, by decide, by decide, by decide, by decide⟩
theorem witness_UndoToInstructionStartFindsLatest : (ring 1 decoded).cur = some 1 ∧
    (ring 1 decoded).hist[0]? = some fetched ∧ fetched.instructionIndex = 0 ∧ fetched.microStep = .phase .fetch ∧
    (ring 1 decoded).hist[1]? = some decoded ∧ ¬ (decoded.instructionIndex = 0 ∧ decoded.microStep = .phase .fetch) ∧
    (∀ e ∈ (ring 1 decoded).hist, e.instructionIndex ≠ 1) := by decide
theorem witness_UndoToInstructionStartFindsLatest_noCursor : loaded.cur = none ∧ loaded.hist = [] := by decide
theorem witness_ResetValues : ∃ t, (serve .reset (ring 1 decoded)).2 = t := ⟨_, rfl⟩
/-- A text that assembles, the empty text, and one that does not. -/
theorem witness_LoadProgramOutcome : (∃ es, assemble "B #0".toList = .ok es ∧ es.length < 2 ^ 62) ∧
    (∃ es, assemble [] = .ok es ∧ es.length < 2 ^ 62) ∧ ∃ err, assemble "B".toList = .error err :=
  ⟨⟨[{ word := 0x14000000#32, line := 1 }], by decide, by decide⟩, ⟨[], by decide, by decide⟩,
    ⟨{ line := 1, content := ['B'], reason := .wrongOperandCount 1 }, by decide⟩⟩
theorem witness_RunIsSingleSteps : (runUntilHalt 0 [true, true, false] loaded).1 = .cancelled ∧
    (runUntilHalt 4 [true] { loaded with pc := 8#64 }).1 = .completed ∧
    (runUntilHalt 2 [true] branching).1 = .fault (.invalidPCError (-4)) ∧ (runUntilHalt 1 [] loaded).1 = .outOfTicks ∧
    (runUntilHalt 3 [true] (State.reset.withFetchWord 32 0)).1 = .refused .undefinedWord ∧
    (runUntilHalt 0 [true, true] { branching with
      prog := [noOperationEntry 7, noOperationEntry 8, { word := 0x17FFFFF4#32, line := 9 }], bp := [7, 9] }).1
      = .breakpoint 7 := by decide
/-- A run with a phase in its middle, a fault after a phase, and a first iteration exempt from its
breakpoint. -/
theorem witness_RunIsSingleSteps_phases : (runUntilHalt 0 [true, true, true, false] loaded).1 = .cancelled ∧
    (∃ u, StepChain 1 loaded u) ∧
    (runUntilHalt 0 [true, true] { branching with microStep := .phase .memory }).1 = .fault (.invalidPCError (-4)) ∧
    ({ loaded with bp := [1] } : State).breakpointAhead = some 1 ∧
    (runUntilHalt 0 [true, false] { loaded with bp := [1] }).1 = .cancelled :=
  ⟨by decide, steps_exists (by decide), by decide, by decide, by decide⟩
/-- Adding before, between and after, and removing. -/
theorem witness_ToggleBreakpointToggles : 0 < 1 ∧ [2, 5].Pairwise (· < ·) ∧ toggleLine 1 [2, 5] = [1, 2, 5] ∧
    toggleLine 3 [2, 5] = [2, 3, 5] ∧ toggleLine 9 [2, 5] = [2, 5, 9] ∧ toggleLine 5 [2, 5] = [2] := by decide

end Sys2Proof.Tests
end

