-- ==== Sys2Proof/Proofs/ExecPhases.lean ====
section
/-! SUPPORT. What `exec` is in each of the six phases, for every instruction (44_sequencer.md R135 to
R141), and the part of the state that no phase reads or writes. -/

namespace Sys2Proof.Machine

open Sys2Proof.Laws

/-! ## The phase operation of each instruction -/

/-- The Execute phase of an instruction (R138): the ALU operation and operands of its kind, nothing for B. -/
def executePhaseOf (i : Instr) (s : State) : Result :=
  match i with
  | .add _ rn rm => executePhase .add .add (s.readReg rn) (s.readReg rm) s
  | .sub _ rn rm => executePhase .sub .sub (s.readReg rn) (s.readReg rm) s
  | .and _ rn rm => executePhase .and .and (s.readReg rn) (s.readReg rm) s
  | .orr _ rn rm => executePhase .orr .orr (s.readReg rn) (s.readReg rm) s
  | .addi _ rn imm => executePhase .addi .add (s.readReg rn) (immOperand imm) s
  | .subi _ rn imm => executePhase .subi .sub (s.readReg rn) (immOperand imm) s
  | .ldur _ rn imm => executePhase .ldur .add (s.readReg rn) (immOperand imm) s
  | .stur _ rn imm => executePhase .stur .add (s.readReg rn) (immOperand imm) s
  | .b _ => emptyPhase .execute s
  | .cbz rt _ => executePhase .cbz .sub (s.readReg rt) 0#64 s
  | .cbnz rt _ => executePhase .cbnz .sub (s.readReg rt) 0#64 s

/-- The Memory phase of an instruction (R139). -/
def memoryPhaseOf (i : Instr) (s : State) : Result :=
  match i with
  | .ldur _ _ _ => loadPhase s
  | .stur rt _ _ => storePhase rt s
  | .add _ _ _ | .sub _ _ _ | .and _ _ _ | .orr _ _ _ | .addi _ _ _ | .subi _ _ _ | .b _ | .cbz _ _ | .cbnz _ _ =>
    emptyPhase .memory s

/-- The WriteBack phase of an instruction (R140). -/
def writeBackPhaseOf (i : Instr) (s : State) : Result :=
  match i with
  | .add rd _ _ | .sub rd _ _ | .and rd _ _ | .orr rd _ _ | .addi rd _ _ | .subi rd _ _ =>
    writeBackPhase rd s.aluResult s
  | .ldur rt _ _ => writeBackPhase rt s.memData s
  | .stur _ _ _ | .b _ | .cbz _ _ | .cbnz _ _ => emptyPhase .writeBack s

/-- What phase `p` of instruction `i` does to a state (R135 to R141). -/
def performPhase (i : Instr) (p : Phase) (s : State) : Result :=
  match p with
  | .fetch => fetchPhase s
  | .decode => decodePhase i.kind s
  | .execute => executePhaseOf i s
  | .memory => memoryPhaseOf i s
  | .writeBack => writeBackPhaseOf i s
  | .updatePC => updatePCPhase (shouldBranch i s) (branchOffset i) s

/-- `exec` performs the phase that follows the one last performed (R132). -/
theorem exec_eq_performPhase (i : Instr) (s : State) : exec i s = performPhase i s.microStep.next s := by
  cases i with
  | add | sub | and | orr | addi | subi =>
    simp only [exec, execAdd, execSub, execAnd, execOrr, execAddi, execSubi, arithLogic]
    cases s.microStep.next <;> rfl
  | ldur | stur | b =>
    simp only [exec, execLdur, execStur, execB]
    cases s.microStep.next <;> rfl
  | cbz rt count =>
    simp only [exec, execCbz, compareBranch]
    cases s.microStep.next <;> rfl
  | cbnz rt count =>
    have hne : (s.readReg rt != 0#64) = shouldBranch (.cbnz rt count) s := by
      simp [shouldBranch, bne, BEq.beq]
    simp only [exec, execCbnz, compareBranch, hne]
    cases s.microStep.next <;> rfl

/-! ## Faults of the Memory phase -/

theorem loadPhase_fault {s : State} {f : Fault} : loadPhase s = .fault f ↔
    ∃ a, s.aluResult = some a ∧ memRead s.params.alignCheck s.mem a .doubleword = .error f := by
  unfold loadPhase
  cases s.aluResult with
  | none => simp
  | some a => cases h : memRead s.params.alignCheck s.mem a .doubleword <;> simp [h, raise]

theorem storePhase_fault {rt : Reg} {s : State} {f : Fault} : storePhase rt s = .fault f ↔
    ∃ a, s.aluResult = some a ∧
      memWrite s.params.alignCheck s.mem a .doubleword (s.readReg rt) = .error f := by
  unfold storePhase
  cases s.aluResult with
  | none => simp
  | some a =>
    cases h : memWrite s.params.alignCheck s.mem a .doubleword (s.readReg rt) <;> simp [h, raise]

/-! ## The surroundings of the engine -/

/-- `s` with the program, the instruction index, the history and the breakpoints of `u`: what no phase
reads or writes. -/
def State.withSurroundings (s u : State) : State :=
  { s with prog := u.prog, instructionIndex := u.instructionIndex, hist := u.hist, cur := u.cur, bp := u.bp }

/-- A result with its next state mapped. -/
def mapNext (f : State → State) (r : Result) : Result :=
  match r with
  | .next t => .next (f t)
  | .fault e => .fault e
  | .refused e => .refused e

section
variable (s u : State)

theorem loadPhase_withSurroundings :
    loadPhase (s.withSurroundings u) = mapNext (·.withSurroundings u) (loadPhase s) := by
  simp only [loadPhase, State.withSurroundings]
  cases s.aluResult with
  | none => rfl
  | some a => cases h : memRead s.params.alignCheck s.mem a .doubleword <;> simp only [h] <;> rfl

theorem storePhase_withSurroundings (rt : Reg) :
    storePhase rt (s.withSurroundings u) = mapNext (·.withSurroundings u) (storePhase rt s) := by
  have hr : (s.withSurroundings u).readReg rt = s.readReg rt := rfl
  rw [storePhase, storePhase, hr]
  simp only [State.withSurroundings]
  cases s.aluResult with
  | none => rfl
  | some a => cases h : memWrite s.params.alignCheck s.mem a .doubleword (s.readReg rt) <;> simp only [h] <;> rfl

theorem writeBackPhase_withSurroundings (r : Reg) (latch : Option Word) :
    writeBackPhase r latch (s.withSurroundings u) = mapNext (·.withSurroundings u) (writeBackPhase r latch s) := by
  cases latch <;> rfl

theorem updatePCPhase_withSurroundings (taken : Bool) (offset : Int) :
    updatePCPhase taken offset (s.withSurroundings u) =
      mapNext (·.withSurroundings u) (updatePCPhase taken offset s) := by
  unfold updatePCPhase
  cases h : validTarget (pcTarget s.pc taken offset) <;> simp [State.withSurroundings, h] <;> rfl

/-- A phase neither reads nor writes the surroundings. -/
theorem exec_withSurroundings (i : Instr) :
    exec i (s.withSurroundings u) = mapNext (·.withSurroundings u) (exec i s) := by
  rw [exec_eq_performPhase, exec_eq_performPhase]
  change performPhase i s.microStep.next _ = _
  cases s.microStep.next with
  | fetch | decode => rfl
  | execute => cases i <;> rfl
  | memory =>
    cases i with
    | ldur => exact loadPhase_withSurroundings s u
    | stur rt => exact storePhase_withSurroundings s u rt
    | _ => rfl
  | writeBack =>
    cases i with
    | stur | b | cbz | cbnz => rfl
    | _ => exact writeBackPhase_withSurroundings s u _ _
  | updatePC => cases i <;> exact updatePCPhase_withSurroundings s u _ _

end

/-- The phase performed is the next one (R132). -/
theorem exec_next_microStep {i : Instr} {s t : State} (h : exec i s = .next t) :
    t.microStep = .phase s.microStep.next := by
  rw [exec_eq_performPhase] at h
  generalize s.microStep.next = p at h ⊢
  cases p with
  | fetch | decode =>
    cases h
    rfl
  | execute => cases i <;> cases h <;> rfl
  | memory =>
    cases i with
    | ldur =>
      obtain ⟨a, v, -, -, rfl⟩ := loadPhase_next.1 h
      rfl
    | stur =>
      obtain ⟨a, m, -, -, rfl⟩ := storePhase_next.1 h
      rfl
    | _ =>
      cases h
      rfl
  | writeBack =>
    cases i with
    | stur | b | cbz | cbnz =>
      cases h
      rfl
    | _ =>
      obtain ⟨v, -, rfl⟩ := writeBackPhase_next.1 h
      rfl
  | updatePC =>
    obtain ⟨-, rfl⟩ := updatePCPhase_next.1 h
    rfl

end Sys2Proof.Machine
end

