-- ==== Sys2Proof/Proofs/StepSimulatesExec.lean ====
section
/-! SUPPORT. Chains of phases, and how the calls of `step` inside one instruction follow the phases of
`exec` (44_sequencer.md R132, R133, R143, R145). -/

namespace Sys2Proof.Machine

open Sys2Proof.Laws

/-! ## The order of the phases -/

/-- From a boundary the next phase is Fetch (R132). -/
theorem MicroStep.next_of_boundary {m : MicroStep} (h : m.boundary = true) : m.next = .fetch := by
  rcases m with _ | _ | _ | _ | _ | _ | _
  case idle | phase.updatePC => rfl
  all_goals cases h

/-- Inside an instruction the next phase has the next number (R130, R132). -/
theorem MicroStep.number_next {m : MicroStep} (h : m.boundary = false) :
    (MicroStep.phase m.next).number = m.number + 1 := by
  rcases m with _ | _ | _ | _ | _ | _ | _
  case idle | phase.updatePC => cases h
  all_goals rfl

/-- The sequencer is inside an instruction after Fetch to WriteBack (R133). -/
theorem MicroStep.boundary_eq_false_iff {m : MicroStep} :
    m.boundary = false ↔ 0 ≤ m.number ∧ m.number < 5 := by
  rcases m with _ | _ | _ | _ | _ | _ | _ <;> decide

/-! ## Chains -/

/-- A chain one phase longer is a chain and one phase more at its end. -/
theorem execChain_succ {i : Instr} {n : Nat} {s t : State} :
    ExecChain i (n + 1) s t ↔ ∃ u, ExecChain i n s u ∧ exec i u = .next t := by
  induction n generalizing s with
  | zero =>
    constructor
    · rintro ⟨u, hu, rfl⟩
      exact ⟨s, rfl, hu⟩
    · rintro ⟨u, rfl, hu⟩
      exact ⟨t, hu, rfl⟩
  | succ n ih =>
    constructor
    · rintro ⟨v, hv, hchain⟩
      obtain ⟨u, hu, ht⟩ := ih.1 hchain
      exact ⟨u, ⟨v, hv, hu⟩, ht⟩
    · rintro ⟨u, ⟨v, hv, hu⟩, ht⟩
      exact ⟨v, hv, ih.2 ⟨u, hu, ht⟩⟩

/-- A chain of performed steps goes on with one performed step. -/
theorem StepChain.snoc {n : Nat} {s u t : State} (h : StepChain n s u) (hc : u.completed = false)
    (ht : step u = .next t) : StepChain (n + 1) s t := by
  induction n generalizing s with
  | zero =>
    cases h
    exact ⟨hc, t, ht, rfl⟩
  | succ n ih =>
    obtain ⟨hs, v, hv, hchain⟩ := h
    exact ⟨hs, v, hv, ih hchain⟩

/-- After `n + 1` phases from a boundary, up to six, the phase last performed is number `n` (R143). -/
theorem execChain_number {i : Instr} {n : Nat} {s t : State} (hs : s.atBoundary = true) (hn : n < 6)
    (h : ExecChain i (n + 1) s t) : t.microStep.number = n := by
  induction n generalizing t with
  | zero =>
    obtain ⟨u, hu, rfl⟩ := h
    rw [exec_next_microStep hu, MicroStep.next_of_boundary hs]
    rfl
  | succ n ih =>
    obtain ⟨u, hu, ht⟩ := execChain_succ.1 h
    have hlast := ih (by omega) hu
    have hinside : u.microStep.boundary = false := MicroStep.boundary_eq_false_iff.2 (by omega)
    rw [exec_next_microStep ht, MicroStep.number_next hinside, hlast]
    rfl

/-! ## One step -/

/-- `step` works on `i` next, and the engine is that of `t`: everything but the surroundings agrees. -/
structure Follows (i : Instr) (t u : State) : Prop where
  running : u.completed = false
  current : u.current = some i
  engine : t.withSurroundings u = u

/-- The state on which `step` performs its phase is the one it follows, in other surroundings. -/
theorem Follows.selected {i : Instr} {t u : State} (h : Follows i t u) :
    { u with instructionIndex := u.fetchIndex } =
      t.withSurroundings { u with instructionIndex := u.fetchIndex } :=
  congrArg (fun v : State => { v with instructionIndex := u.fetchIndex }) h.engine.symm

/-- Where the phase faults, so does the step. -/
theorem Follows.step_fault {i : Instr} {t u : State} {f : Fault} (h : Follows i t u)
    (hf : exec i t = .fault f) : step u = .fault f := by
  refine Laws.step_fault.2 ⟨h.running, i, h.current, ?_⟩
  rw [h.selected, exec_withSurroundings, hf]
  rfl

/-- Where the phase goes on to `t'`, the step goes on to the engine of `t'`, with the index of the
selected instruction. -/
theorem Follows.step_next {i : Instr} {t t' u : State} (h : Follows i t u) (ht : exec i t = .next t') :
    ∃ u', step u = .next u' ∧ t'.withSurroundings u' = u' ∧ u'.prog = u.prog ∧
      u'.instructionIndex = u.fetchIndex := by
  refine ⟨record (t'.withSurroundings { u with instructionIndex := u.fetchIndex }),
    Laws.step_next.2 (.inr ⟨h.running, i, _, h.current, ?_, rfl⟩), rfl, rfl, rfl⟩
  rw [h.selected, exec_withSurroundings, ht]
  rfl

/-- Inside the instruction the step goes on with it. -/
theorem Follows.step_inside {i : Instr} {t t' u : State} (h : Follows i t u) (ht : exec i t = .next t')
    (hinside : t'.atBoundary = false) : ∃ u', step u = .next u' ∧ Follows i t' u' := by
  obtain ⟨u', hu', hengine, hprog, hindex⟩ := h.step_next ht
  have hb : u'.atBoundary = false := by
    rw [← hengine]
    exact hinside
  refine ⟨u', hu', ?_, ?_, hengine⟩
  · simp [State.completed, hb]
  · rw [← h.current]
    simp [State.current, State.fetchIndex, hb, hprog, hindex]

/-! ## The steps of one instruction -/

section
variable {i : Instr} {s t : State}

/-- The sequencer stands inside the instruction after one to five phases from a boundary. -/
theorem execChain_inside {n : Nat} (hs : s.atBoundary = true) (hn : n < 5) (h : ExecChain i (n + 1) s t) :
    t.atBoundary = false := by
  have hnumber := execChain_number hs (by omega) h
  exact MicroStep.boundary_eq_false_iff.2 (by omega)

/-- Up to five phases of the selected instruction, performed by `step`. -/
theorem steps_follow_phases {n : Nat} (hs : s.atBoundary = true) (hc : s.completed = false)
    (hi : s.current = some i) (hn : n < 6) (h : ExecChain i n s t) : ∃ u, StepChain n s u ∧ Follows i t u := by
  induction n generalizing t with
  | zero =>
    cases h
    exact ⟨s, rfl, hc, hi, rfl⟩
  | succ n ih =>
    obtain ⟨t₀, h₀, ht⟩ := execChain_succ.1 h
    obtain ⟨u₀, hsteps, hfollows⟩ := ih (by omega) h₀
    obtain ⟨u, hu, hfollows'⟩ := hfollows.step_inside ht (execChain_inside hs (by omega) h)
    exact ⟨u, hsteps.snoc hfollows.running hu, hfollows'⟩

/-- All six phases of the selected instruction, performed by `step`. -/
theorem six_steps_follow_phases (hs : s.atBoundary = true) (hc : s.completed = false) (hi : s.current = some i)
    (h : ExecChain i 6 s t) : ∃ u, StepChain 6 s u ∧ t.withSurroundings u = u := by
  obtain ⟨t₀, h₀, ht⟩ := execChain_succ.1 h
  obtain ⟨u₀, hsteps, hfollows⟩ := steps_follow_phases hs hc hi (by omega) h₀
  obtain ⟨u, hu, hengine, -, -⟩ := hfollows.step_next ht
  exact ⟨u, hsteps.snoc hfollows.running hu, hengine⟩

end
end Sys2Proof.Machine
end

