-- ==== Sys2Proof/Proofs/Refinement.lean ====
section
/-! PROOF. The six phases of every instruction refine its pseudocode (00_scope.md R8). -/

namespace Sys2Proof.Machine

open Sys2Proof.Laws

/-! ## Values -/

/-- The operand sum of ADDI, LDUR and STUR is the mathematical sum modulo 2^64 (R104, R48). -/
theorem add_immOperand (x : Word) (imm : Int) : x + immOperand imm = BitVec.ofInt 64 (x.toNat + imm) := by
  rw [BitVec.ofInt_add, BitVec.ofInt_natCast, BitVec.ofNat_toNat, BitVec.setWidth_eq, immOperand]

/-- The operand difference of SUBI is the mathematical difference modulo 2^64 (R105). -/
theorem sub_immOperand (x : Word) (imm : Int) : x - immOperand imm = BitVec.ofInt 64 (x.toNat - imm) := by
  rw [Int.sub_eq_add_neg, BitVec.ofInt_add, BitVec.ofInt_neg, BitVec.ofInt_natCast, BitVec.ofNat_toNat,
    BitVec.setWidth_eq, BitVec.sub_eq_add_neg, immOperand]

/-- A comparison with 0 passes the register value through and writes the flags of R122. -/
theorem compute_sub_zero (v : Word) : compute v 0#64 .sub = { result := v, flags := comparisonFlags v } := by
  simp [compute, aluValue, aluFlags, flagN, flagZ, flagC, flagV, low32, comparisonFlags]

theorem goto_of_valid {a : Arch} {t : Int} (h : validTarget t = true) :
    a.goto t = .ok { a with pc := BitVec.ofInt 64 t } := by
  have := validTarget_iff.1 h
  rw [Arch.goto, if_neg (by omega)]

theorem goto_of_invalid {a : Arch} {t : Int} (h : validTarget t = false) :
    a.goto t = .error (.invalidPCError t) := by
  have := mt validTarget_iff.2 (Bool.eq_false_iff.1 h)
  rw [Arch.goto, if_pos (by omega)]

/-! ## What the phases reach -/

/-- From `s` the phases of `i` reach `r`: its state after six phases, or its fault after fewer. -/
def PhasesReach (i : Instr) (s : State) (r : Except Fault Arch) : Prop :=
  match r with
  | .ok a => ∃ t, ExecChain i 6 s t ∧ t.arch = a ∧ t.microStep = .phase .updatePC
  | .error f => ∃ n t, n < 6 ∧ ExecChain i n s t ∧ exec i t = .fault f

section
variable {i : Instr} {s t : State}

/-- The state after the Fetch and Decode phases of `i`. -/
def State.decoded (s : State) (i : Instr) : State :=
  { s with ctrl := controlSignals i.kind, microStep := .phase .decode }

/-- Two phases from a boundary latch the control signals of the kind (R136, R137). -/
theorem execChain_decoded (hs : s.atBoundary = true) {n : Nat} (h : ExecChain i n (s.decoded i) t) :
    ExecChain i (n + 2) s t := by
  have hfetch : exec i s = fetchPhase s := by
    rw [exec_eq_performPhase, MicroStep.next_of_boundary hs]
    rfl
  exact ⟨_, hfetch, s.decoded i, exec_eq_performPhase i _, h⟩

/-- After five phases the sixth reaches the new `pc`, or its fault (R141, R124). -/
theorem phasesReach_goto (h : ExecChain i 5 s t) (ht : t.microStep = .phase .writeBack) :
    PhasesReach i s (t.arch.goto (nextPC i t)) := by
  have hexec : exec i t = updatePCPhase (shouldBranch i t) (branchOffset i) t := by
    rw [exec_eq_performPhase, ht]
    rfl
  cases hv : validTarget (nextPC i t) with
  | true =>
    rw [goto_of_valid hv]
    exact ⟨_, execChain_succ.2 ⟨t, h, hexec.trans (updatePCPhase_next.2 ⟨hv, rfl⟩)⟩, rfl, rfl⟩
  | false =>
    rw [goto_of_invalid hv]
    exact ⟨5, t, by omega, h, hexec.trans (updatePCPhase_fault.2 ⟨hv, rfl⟩)⟩

/-! ## What five phases do -/

/-- The state after five phases that write `v` from the ALU latch to `rd` (R106). -/
def State.writtenBack (s : State) (i : Instr) (rd : Reg) (v : Word) : State :=
  { s with
    regs := Regs.write s.regs rd v
    ctrl := controlSignals i.kind
    aluResult := some v
    microStep := .phase .writeBack }

/-- The state after five phases that compare `x[rt]` with 0 (R122, R123). -/
def State.compared (s : State) (i : Instr) (rt : Reg) : State :=
  { s with
    ctrl := controlSignals i.kind
    aluResult := some (compute (s.readReg rt) 0#64 .sub).result
    flags := (compute (s.readReg rt) 0#64 .sub).flags
    microStep := .phase .writeBack }

/-- The state after three phases that compute the address `a` of LDUR or STUR (R110, R111). -/
def State.addressed (s : State) (i : Instr) (a : Word) : State :=
  { s with
    ctrl := controlSignals i.kind
    aluResult := some a
    microStep := .phase .execute }

/-- An arithmetic or logic instruction reaches the written register and the next `pc` (R106). -/
theorem phasesReach_writtenBack {rd : Reg} {v : Word} (hs : s.atBoundary = true)
    (h : ExecChain i 3 (s.decoded i) (s.writtenBack i rd v))
    (hnext : nextPC i (s.writtenBack i rd v) = s.pc.toNat + 4) : PhasesReach i s (s.arch.setX rd v).advance := by
  have := phasesReach_goto (execChain_decoded hs h) rfl
  rwa [hnext] at this

/-- CBZ and CBNZ reach the flags of the comparison and the target (R122, R123). -/
theorem phasesReach_compared {rt : Reg} {target : Int} (hs : s.atBoundary = true)
    (h : ExecChain i 3 (s.decoded i) (s.compared i rt)) (hnext : nextPC i (s.compared i rt) = target) :
    PhasesReach i s (({ s.arch with flags := comparisonFlags (s.readReg rt) } : Arch).goto target) := by
  have := phasesReach_goto (execChain_decoded hs h) rfl
  rwa [hnext, State.compared, compute_sub_zero] at this

/-- The base and offset of the pseudocode give the effective address (R48, R110, R111). -/
theorem effectiveAddress_eq (s : State) (rn : Reg) (imm : Int) :
    effectiveAddress s rn imm = BitVec.ofInt 64 ((s.arch.x rn).toNat + imm) :=
  add_immOperand _ imm

/-- LDUR reaches the loaded register and the next `pc`, or the fault of the access (R110, R112). -/
theorem phasesReach_ldur (hs : s.atBoundary = true) (rt rn : Reg) (imm : Int) :
    PhasesReach (.ldur rt rn imm) s (instructionLevel s.params.alignCheck (.ldur rt rn imm) s.arch) := by
  have haddressed : ExecChain (.ldur rt rn imm) 3 s (s.addressed (.ldur rt rn imm) (effectiveAddress s rn imm)) :=
    execChain_decoded hs ⟨_, rfl, rfl⟩
  have hmemory : exec (.ldur rt rn imm) (s.addressed (.ldur rt rn imm) (effectiveAddress s rn imm)) =
      loadPhase (s.addressed (.ldur rt rn imm) (effectiveAddress s rn imm)) := rfl
  rw [instructionLevel, ← effectiveAddress_eq]
  cases hread : memRead s.params.alignCheck s.arch.mem (effectiveAddress s rn imm) .doubleword with
  | error f => exact ⟨3, _, by omega, haddressed, hmemory.trans (loadPhase_fault.2 ⟨_, rfl, hread⟩)⟩
  | ok v =>
    have hloaded := execChain_succ.2 ⟨_, haddressed, hmemory.trans (loadPhase_next.2 ⟨_, v, rfl, hread, rfl⟩)⟩
    exact phasesReach_goto (execChain_succ.2 ⟨_, hloaded, rfl⟩) rfl

/-- STUR reaches the written memory and the next `pc`, or the fault of the access (R111, R112). -/
theorem phasesReach_stur (hs : s.atBoundary = true) (rt rn : Reg) (imm : Int) :
    PhasesReach (.stur rt rn imm) s (instructionLevel s.params.alignCheck (.stur rt rn imm) s.arch) := by
  have haddressed : ExecChain (.stur rt rn imm) 3 s (s.addressed (.stur rt rn imm) (effectiveAddress s rn imm)) :=
    execChain_decoded hs ⟨_, rfl, rfl⟩
  have hmemory : exec (.stur rt rn imm) (s.addressed (.stur rt rn imm) (effectiveAddress s rn imm)) =
      storePhase rt (s.addressed (.stur rt rn imm) (effectiveAddress s rn imm)) := rfl
  rw [instructionLevel, ← effectiveAddress_eq]
  cases hwrite : memWrite s.params.alignCheck s.arch.mem (effectiveAddress s rn imm) .doubleword (s.arch.x rt) with
  | error f => exact ⟨3, _, by omega, haddressed, hmemory.trans (storePhase_fault.2 ⟨_, rfl, hwrite⟩)⟩
  | ok m =>
    have hstored := execChain_succ.2 ⟨_, haddressed, hmemory.trans (storePhase_next.2 ⟨_, m, rfl, hwrite, rfl⟩)⟩
    exact phasesReach_goto (execChain_succ.2 ⟨_, hstored, rfl⟩) rfl

end

/-! ## The eleven instructions -/

/-- The phases of every instruction reach what its pseudocode gives: the state or the fault (R8). -/
theorem phasesReach_instructionLevel {s : State} (hs : s.atBoundary = true) (i : Instr) :
    PhasesReach i s (instructionLevel s.params.alignCheck i s.arch) := by
  cases i with
  | add | sub | and | orr => exact phasesReach_writtenBack hs ⟨_, rfl, _, rfl, _, rfl, rfl⟩ rfl
  | addi rd rn imm =>
    rw [instructionLevel, ← add_immOperand]
    exact phasesReach_writtenBack hs ⟨_, rfl, _, rfl, _, rfl, rfl⟩ rfl
  | subi rd rn imm =>
    rw [instructionLevel, ← sub_immOperand]
    exact phasesReach_writtenBack hs ⟨_, rfl, _, rfl, _, rfl, rfl⟩ rfl
  | ldur rt rn imm => exact phasesReach_ldur hs rt rn imm
  | stur rt rn imm => exact phasesReach_stur hs rt rn imm
  | b offset =>
    exact phasesReach_goto (t := { s.decoded (.b offset) with microStep := .phase .writeBack })
      (execChain_decoded hs ⟨_, rfl, _, rfl, _, rfl, rfl⟩) rfl
  | cbz rt count =>
    refine phasesReach_compared hs ⟨_, rfl, _, rfl, _, rfl, rfl⟩ ?_
    simp only [nextPC, shouldBranch, branchOffset, decide_eq_true_eq]
    rfl
  | cbnz rt count =>
    refine phasesReach_compared hs ⟨_, rfl, _, rfl, _, rfl, rfl⟩ ?_
    simp only [nextPC, shouldBranch, branchOffset, decide_eq_true_eq]
    rfl

/-- Settles O46: the phases reach what the pseudocode gives, and the steps follow the phases. -/
theorem phasesMeetInstructionLevel : Obligations.PhasesMeetInstructionLevel := by
  intro s i hs hc hi
  have hreach := phasesReach_instructionLevel hs i
  cases hlevel : instructionLevel s.params.alignCheck i s.arch with
  | ok a =>
    rw [hlevel] at hreach
    obtain ⟨t, hchain, rfl, hphase⟩ := hreach
    obtain ⟨u, hsteps, hengine⟩ := six_steps_follow_phases hs hc hi hchain
    exact ⟨u, hsteps, by rw [← hengine]; rfl, by rw [← hengine]; exact hphase⟩
  | error f =>
    rw [hlevel] at hreach
    obtain ⟨n, t, hn, hchain, hfault⟩ := hreach
    obtain ⟨u, hsteps, hfollows⟩ := steps_follow_phases hs hc hi hn hchain
    exact ⟨n, u, hn, hsteps, hfollows.step_fault hfault⟩

end Sys2Proof.Machine
end

