-- ==== Sys2Proof/Proofs/PhaseEffects.lean ====
section
/-! SUPPORT. Everything a phase can do to a state: one case per phase and kind of effect
(44_sequencer.md R135 to R141). -/

namespace Sys2Proof.Machine

open Sys2Proof.Laws

/-! ## What an instruction uses -/

/-- What the ALU answers in the Execute phase; B does not use it (R138). -/
def aluOutput (i : Instr) (s : State) : Option AluOutput :=
  match i with
  | .add _ rn rm => some (compute (s.readReg rn) (s.readReg rm) .add)
  | .sub _ rn rm => some (compute (s.readReg rn) (s.readReg rm) .sub)
  | .and _ rn rm => some (compute (s.readReg rn) (s.readReg rm) .and)
  | .orr _ rn rm => some (compute (s.readReg rn) (s.readReg rm) .orr)
  | .addi _ rn imm => some (compute (s.readReg rn) (immOperand imm) .add)
  | .subi _ rn imm => some (compute (s.readReg rn) (immOperand imm) .sub)
  | .ldur _ rn imm => some (compute (s.readReg rn) (immOperand imm) .add)
  | .stur _ rn imm => some (compute (s.readReg rn) (immOperand imm) .add)
  | .b _ => none
  | .cbz rt _ => some (compute (s.readReg rt) 0#64 .sub)
  | .cbnz rt _ => some (compute (s.readReg rt) 0#64 .sub)

/-- The register the WriteBack phase writes, for the seven kinds that write one (R140). -/
def destination (i : Instr) : Option Reg :=
  match i with
  | .add rd _ _ | .sub rd _ _ | .and rd _ _ | .orr rd _ _ | .addi rd _ _ | .subi rd _ _ | .ldur rd _ _ => some rd
  | .stur _ _ _ | .b _ | .cbz _ _ | .cbnz _ _ => none

/-- The kinds other than B use the ALU. -/
theorem kind_ne_b_of_aluOutput {i : Instr} {s : State} {o : AluOutput} (h : aluOutput i s = some o) :
    i.kind ≠ .b := by
  cases i with
  | b => cases h
  | _ => nofun

/-! ## The effects -/

/-- What the phase of `i` that follows `s.microStep` can do, as far as frames and the invariant ask: the
value loaded, stored or written back and the target of a branch are left free. -/
inductive PhaseEffect (i : Instr) (s : State) : State → Prop
  /-- Fetch clears the control signals (R136). -/
  | fetch : s.atBoundary = true →
      PhaseEffect i s { s with ctrl := ControlSignals.clear, microStep := .phase .fetch }
  /-- Decode latches the control signals of the kind (R137). -/
  | decode : s.microStep = .phase .fetch →
      PhaseEffect i s { s with ctrl := controlSignals i.kind, microStep := .phase .decode }
  /-- Execute of a kind other than B latches what the ALU answers (R138). -/
  | alu {o : AluOutput} : s.microStep = .phase .decode → aluOutput i s = some o →
      PhaseEffect i s (s.executed o (isComparison i.kind || s.ctrl.flagWrite))
  /-- Execute of B does nothing (R138). -/
  | idleExecute : s.microStep = .phase .decode → i.kind = .b →
      PhaseEffect i s { s with microStep := .phase .execute }
  /-- Memory of LDUR latches the doubleword read (R139). -/
  | load {v : Word} : s.microStep = .phase .execute → i.kind = .ldur →
      PhaseEffect i s { s with memData := some v, microStep := .phase .memory }
  /-- Memory of STUR writes a doubleword at the latched address (R139). -/
  | store {a v : Word} {m : Memory} : s.microStep = .phase .execute → i.kind = .stur → s.aluResult = some a →
      memWrite s.params.alignCheck s.mem a .doubleword v = .ok m →
      PhaseEffect i s { s with mem := m, microStep := .phase .memory }
  /-- Memory of the other kinds does nothing (R139). -/
  | idleMemory : s.microStep = .phase .execute → i.kind ≠ .ldur → i.kind ≠ .stur →
      PhaseEffect i s { s with microStep := .phase .memory }
  /-- WriteBack writes the destination (R140). -/
  | writeBack {r : Reg} {v : Word} : s.microStep = .phase .memory → destination i = some r →
      PhaseEffect i s { s.writeReg r v with microStep := .phase .writeBack }
  /-- WriteBack of a kind without a destination does nothing (R140). -/
  | idleWriteBack : s.microStep = .phase .memory → destination i = none →
      PhaseEffect i s { s with microStep := .phase .writeBack }
  /-- UpdatePC goes on to a target `pc` can hold (R141, R124). -/
  | updatePC {taken : Bool} {target : Int} : s.microStep = .phase .writeBack → validTarget target = true →
      PhaseEffect i s { s with
        pc := BitVec.ofInt 64 target, ctrl := { s.ctrl with pcSrc := taken }, microStep := .phase .updatePC }

section
variable {i : Instr} {s t : State}

theorem executePhaseOf_effect (hm : s.microStep = .phase .decode) (h : executePhaseOf i s = .next t) :
    PhaseEffect i s t := by
  cases i with
  | b =>
    cases h
    exact .idleExecute hm rfl
  | _ =>
    cases h
    exact .alu hm rfl

theorem memoryPhaseOf_effect (hm : s.microStep = .phase .execute) (h : memoryPhaseOf i s = .next t) :
    PhaseEffect i s t := by
  cases i with
  | ldur =>
    obtain ⟨a, v, -, -, rfl⟩ := loadPhase_next.1 h
    exact .load hm rfl
  | stur =>
    obtain ⟨a, m, ha, hwrite, rfl⟩ := storePhase_next.1 h
    exact .store hm rfl ha hwrite
  | _ =>
    cases h
    exact .idleMemory hm nofun nofun

theorem writeBackPhaseOf_effect (hm : s.microStep = .phase .memory) (h : writeBackPhaseOf i s = .next t) :
    PhaseEffect i s t := by
  cases i with
  | stur | b | cbz | cbnz =>
    cases h
    exact .idleWriteBack hm rfl
  | _ =>
    obtain ⟨v, -, rfl⟩ := writeBackPhase_next.1 h
    exact .writeBack hm rfl

/-- A phase that goes on has one of the effects. -/
theorem exec_next_effect (h : exec i s = .next t) : PhaseEffect i s t := by
  rw [exec_eq_performPhase] at h
  rcases hm : s.microStep with _ | _ | _ | _ | _ | _ | _ <;> rw [hm] at h
  case idle | phase.updatePC =>
    cases h
    exact .fetch (congrArg MicroStep.boundary hm)
  case phase.fetch =>
    cases h
    exact .decode hm
  case phase.decode => exact executePhaseOf_effect hm h
  case phase.execute => exact memoryPhaseOf_effect hm h
  case phase.memory => exact writeBackPhaseOf_effect hm h
  case phase.writeBack =>
    obtain ⟨hvalid, rfl⟩ := updatePCPhase_next.1 h
    exact .updatePC hm hvalid

/-- A phase changes the engine only: not the program, the history, the breakpoints or the parameters. -/
theorem exec_next_eq_restore (h : exec i s = .next t) : t = s.restore t.snapshot := by
  cases exec_next_effect h <;> rfl

/-- No phase writes the instruction index (R133). -/
theorem exec_next_instructionIndex (h : exec i s = .next t) : t.instructionIndex = s.instructionIndex := by
  cases exec_next_effect h <;> rfl

end
end Sys2Proof.Machine
end

