-- ==== Sys2Proof/Proofs/StateFrames.lean ====
section
/-! PROOF. Which parts of the state a phase leaves as they are (10_state.md R10 to R22). -/

namespace Sys2Proof.Machine

open Sys2Proof.Laws

/-! ## Reading and writing a register -/

/-- Register 31 reads 0 (R11). -/
theorem readReg_xzr (s : State) : s.readReg 31 = 0#64 := rfl

/-- A write to register 31 changes nothing (R11). -/
theorem writeReg_xzr (s : State) (v : Word) : s.writeReg 31 v = s := rfl

/-- Every other register reads what was written to it (R10). -/
theorem readReg_writeReg_same (s : State) {r : Reg} (v : Word) (h : r ≠ 31) : (s.writeReg r v).readReg r = v := by
  have hlt : r.val < 31 := Fin.val_lt_last (n := 31) h
  simp [State.readReg, hlt, regsWrite_getElem]

/-! ## What each phase leaves -/

section
variable {i : Instr} {s t : State}

/-- Registers are written in the WriteBack phase only (R140). -/
theorem exec_next_regs (h : exec i s = .next t) (hm : s.microStep ≠ .phase .memory) : t.regs = s.regs := by
  cases exec_next_effect h with
  | writeBack hmem => exact absurd hmem hm
  | _ => rfl

/-- No register but the destination is written (R13). -/
theorem exec_next_readReg (h : exec i s = .next t) {q : Reg} (hq : destination i ≠ some q) :
    t.readReg q = s.readReg q := by
  cases exec_next_effect h with
  | @writeBack r v _ hdest =>
    have hne : q ≠ r := by
      rintro rfl
      exact hq hdest
    exact readReg_writeReg_ne s r q v hne
  | _ => rfl

/-- Flags are written in the Execute phase only (R138). -/
theorem exec_next_flags (h : exec i s = .next t) (hm : s.microStep ≠ .phase .decode) : t.flags = s.flags := by
  cases exec_next_effect h with
  | alu hdec => exact absurd hdec hm
  | _ => rfl

/-- `pc` is written in the UpdatePC phase only (R141). -/
theorem exec_next_pc (h : exec i s = .next t) (hm : s.microStep ≠ .phase .writeBack) : t.pc = s.pc := by
  cases exec_next_effect h with
  | updatePC hwb => exact absurd hwb hm
  | _ => rfl

/-- Execute, Memory and WriteBack keep the control signals (R137). -/
theorem exec_next_ctrl (h : exec i s = .next t)
    (hm : s.microStep = .phase .decode ∨ s.microStep = .phase .execute ∨ s.microStep = .phase .memory) :
    t.ctrl = s.ctrl := by
  cases exec_next_effect h with
  | fetch hb => rcases hm with hm | hm | hm <;> simp [State.atBoundary, hm, MicroStep.boundary] at hb
  | decode hlast | updatePC hlast => simp [hlast] at hm
  | _ => rfl

/-- The ALU latch is written in the Execute phase of a kind other than B only (R138). -/
theorem exec_next_aluResult (h : exec i s = .next t) (hm : s.microStep ≠ .phase .decode ∨ i.kind = .b) :
    t.aluResult = s.aluResult := by
  cases exec_next_effect h with
  | alu hdec halu => exact (hm.elim (· hdec) (kind_ne_b_of_aluOutput halu)).elim
  | _ => rfl

/-- The load latch is written in the Memory phase of LDUR only (R139). -/
theorem exec_next_memData (h : exec i s = .next t) (hm : s.microStep ≠ .phase .execute ∨ i.kind ≠ .ldur) :
    t.memData = s.memData := by
  cases exec_next_effect h with
  | load hex hk => exact (hm.elim (· hex) (· hk)).elim
  | _ => rfl

end

/-! ## The statements -/

/-- Settles O13. -/
theorem zeroRegisterAndRegisterWrites : Obligations.ZeroRegisterAndRegisterWrites := by
  intro s r q v
  refine ⟨?_, readReg_xzr s, writeReg_xzr s v⟩
  by_cases hq : q = r
  · subst hq
    by_cases h31 : q = 31
    · subst h31
      rfl
    · rw [if_pos ⟨rfl, h31⟩, readReg_writeReg_same s v h31]
  · rw [if_neg (fun h => hq h.1), readReg_writeReg_ne s r q v hq]

/-- Settles O38: the register excluded for each kind is its destination. -/
theorem registerFrame : Obligations.RegisterFrame := by
  intro i s t h
  refine ⟨exec_next_regs h, fun q hq => exec_next_readReg h ?_⟩
  cases i with
  | stur | b | cbz | cbnz => nofun
  | _ => exact fun hdest => hq (Option.some.inj hdest).symm

/-- Settles O41: outside Execute no kind writes the flags, in Execute only the two comparisons do. -/
theorem flagsFrame : Obligations.FlagsFrame := by
  intro i s t hflag h
  by_cases hm : s.microStep = .phase .decode
  · rw [exec_eq_performPhase, hm] at h
    cases i with
    | b =>
      cases h
      rfl
    | cbz | cbnz =>
      cases h
      rw [hm]
      rfl
    | _ =>
      cases h
      simp only [hflag]
      rfl
  · rw [exec_next_flags h hm]
    split
    · exact absurd ‹_› hm
    · exact absurd ‹_› hm
    · rfl

/-- Settles O42: a phase changes the engine only, and of the engine what is its own. -/
theorem sequencerFrame : Obligations.SequencerFrame := by
  intro i s t h
  have hengine := exec_next_eq_restore h
  exact ⟨by rw [hengine, restore_prog], by rw [hengine, restore_hist], by rw [hengine, restore_cur],
    by rw [hengine, restore_bp], by rw [hengine, restore_params], exec_next_instructionIndex h,
    exec_next_microStep h, exec_next_pc h, exec_next_ctrl h, exec_next_aluResult h, exec_next_memData h⟩

end Sys2Proof.Machine
end

