-- ==== Sys2Proof/Proofs/FlagsInfluence.lean ====
section
/-! PROOF. No phase and no step reads the flags but to keep or record them (10_state.md R16). -/

namespace Sys2Proof.Machine

open Sys2Proof.Laws

/-- `s` with other flags. -/
def State.withFlags (s : State) (f : Flags) : State := { s with flags := f }

/-! ## One phase -/

section
variable (s : State) (f : Flags)

theorem loadPhase_withFlags : loadPhase (s.withFlags f) = mapNext (·.withFlags f) (loadPhase s) := by
  simp only [loadPhase, State.withFlags]
  cases s.aluResult with
  | none => rfl
  | some a => cases h : memRead s.params.alignCheck s.mem a .doubleword <;> simp only [h] <;> rfl

theorem storePhase_withFlags (rt : Reg) :
    storePhase rt (s.withFlags f) = mapNext (·.withFlags f) (storePhase rt s) := by
  have hr : (s.withFlags f).readReg rt = s.readReg rt := rfl
  rw [storePhase, storePhase, hr]
  simp only [State.withFlags]
  cases s.aluResult with
  | none => rfl
  | some a => cases h : memWrite s.params.alignCheck s.mem a .doubleword (s.readReg rt) <;> simp only [h] <;> rfl

theorem writeBackPhase_withFlags (r : Reg) (latch : Option Word) :
    writeBackPhase r latch (s.withFlags f) = mapNext (·.withFlags f) (writeBackPhase r latch s) := by
  cases latch <;> rfl

theorem updatePCPhase_withFlags (taken : Bool) (offset : Int) :
    updatePCPhase taken offset (s.withFlags f) = mapNext (·.withFlags f) (updatePCPhase taken offset s) := by
  unfold updatePCPhase
  cases h : validTarget (pcTarget s.pc taken offset) <;> simp [State.withFlags, h] <;> rfl

/-- Execute goes on alike; it keeps the flags it found or commits the ALU's (R138). -/
theorem executePhaseOf_withFlags (i : Instr) :
    ∃ g, executePhaseOf i (s.withFlags f) = mapNext (·.withFlags g) (executePhaseOf i s) := by
  cases i with
  | b => exact ⟨f, rfl⟩
  | _ => exact ⟨_, rfl⟩

/-- A phase from other flags stops alike, or goes on to a state that differs in the flags only (R16). -/
theorem exec_withFlags (i : Instr) : ∃ g, exec i (s.withFlags f) = mapNext (·.withFlags g) (exec i s) := by
  rw [exec_eq_performPhase, exec_eq_performPhase]
  change ∃ g, performPhase i s.microStep.next _ = _
  cases s.microStep.next with
  | fetch | decode => exact ⟨f, rfl⟩
  | execute => exact executePhaseOf_withFlags s f i
  | memory =>
    cases i with
    | ldur => exact ⟨f, loadPhase_withFlags s f⟩
    | stur rt => exact ⟨f, storePhase_withFlags s f rt⟩
    | _ => exact ⟨f, rfl⟩
  | writeBack =>
    cases i with
    | stur | b | cbz | cbnz => exact ⟨f, rfl⟩
    | _ => exact ⟨f, writeBackPhase_withFlags s f _ _⟩
  | updatePC => cases i <;> exact ⟨f, updatePCPhase_withFlags s f _ _⟩

/-! ## One step -/

/-- A selection of the same instruction, from other flags. -/
def Selection.withFlags (sel : Selection) (f : Flags) : Selection :=
  match sel with
  | .completed => .completed
  | .refuse r => .refuse r
  | .perform i t => .perform i (t.withFlags f)

/-- The flags do not take part in the selection (R145). -/
theorem select_withFlags : select (s.withFlags f) = (select s).withFlags f := by
  have hc : (s.withFlags f).completed = s.completed := rfl
  have he : (s.withFlags f).prog[(s.withFlags f).fetchIndex]? = s.prog[s.fetchIndex]? := rfl
  unfold select
  rw [hc, he]
  cases s.completed with
  | true => rfl
  | false =>
    cases s.prog[s.fetchIndex]? with
    | none => rfl
    | some e => cases h : decode e.word <;> simp only [h] <;> rfl

/-- How long the ring becomes does not depend on the snapshot appended (R163). -/
theorem length_appendBounded_congr (n : Nat) (h : List Snapshot) (e e' : Snapshot) :
    (appendBounded n h e).length = (appendBounded n h e').length := by
  simp only [appendBounded, List.length_append, List.length_singleton]
  split <;> simp

/-- Recording puts the cursor in the same place, whatever the flags. -/
theorem record_withFlags :
    record (s.withFlags f) = { record s with flags := f, hist := (record (s.withFlags f)).hist } := by
  have hcur : (record (s.withFlags f)).cur = (record s).cur := by
    rw [record_cur, record_cur, tailCursor, tailCursor, record_hist, record_hist]
    rw [length_appendBounded_congr _ _ (s.withFlags f).snapshot s.snapshot]
    rfl
  calc record (s.withFlags f) = { record (s.withFlags f) with cur := (record (s.withFlags f)).cur } := rfl
    _ = { record s with flags := f, hist := (record (s.withFlags f)).hist } := by rw [hcur]; rfl

end

/-- Settles O52: the instruction is selected, performed and recorded alike. -/
theorem flagsInfluenceNothingElse : Obligations.FlagsInfluenceNothingElse := by
  intro s f
  rw [show ({ s with flags := f } : State) = s.withFlags f from rfl]
  unfold step
  rw [select_withFlags]
  cases select s with
  | completed => exact ⟨f, s.hist, rfl⟩
  | refuse r => rfl
  | perform i t =>
    obtain ⟨g, hg⟩ := exec_withFlags t f i
    simp only [Selection.withFlags, hg]
    cases exec i t with
    | next u => exact ⟨g, _, congrArg Host.Outcome.next (record_withFlags u g)⟩
    | fault e => rfl
    | refused r => rfl

end Sys2Proof.Machine
end

