-- ==== Sys2Proof/Proofs/StepInvariant.lean ====
section
/-! PROOF. The invariant of the core holds at reset and every step keeps it: a phase keeps the engine's
part for the instruction it works on, and recording keeps the ring's (10_state.md R14, R16, R29;
44_sequencer.md R133 to R141; 45_history_debug.md R162, R163). -/

namespace Sys2Proof.Machine

open Sys2Proof.Laws

/-! ## At a boundary -/

/-- At a boundary the invariant says nothing of the index, and of the latches only FlagWrite (R133). -/
theorem EngineInv.of_boundary {prog : List ProgEntry} {e : Snapshot} (hb : e.microStep.boundary = true)
    (hwf : e.mem.wf = true) (hbounded : e.mem.bounded = true) (hpc : e.pc.toNat % 4 = 0)
    (hflag : e.ctrl.flagWrite = false) : EngineInv prog e where
  mem_wf := hwf
  mem_bounded := hbounded
  pc_aligned := hpc
  flagWrite_false := hflag
  index_of_pc hinside := by simp [hb] at hinside
  ctrl_fetch hm := by simp [hm, MicroStep.boundary] at hb
  ctrl_decoded _ hinside := by simp [hb] at hinside
  alu_latch _ hm := by rcases hm with hm | hm <;> simp [hm, MicroStep.boundary] at hb
  mem_latch _ hm := by simp [hm, MicroStep.boundary] at hb

/-- Settles O48: at reset the sequencer is at a boundary, and the ring, the program and the breakpoint set
are empty. -/
theorem resetMeetsInvariant : Obligations.ResetMeetsInvariant where
  engine := .of_boundary rfl wf_reset rfl rfl rfl
  prog_short := Nat.two_pow_pos 62
  prog_admissible := nofun
  histMax_pos := by decide
  hist_bounded := Nat.zero_le _
  hist_sound _ he := absurd he List.not_mem_nil
  cursor_none _ := rfl
  cursor_here := nofun
  bp_rising := .nil
  bp_positive := nofun

/-! ## The selected instruction -/

/-- An index that holds an instruction lies in the program. -/
theorem lt_length_of_instrAt {prog : List ProgEntry} {k : Nat} {i : Instr} (h : instrAt prog k = some i) :
    k < prog.length := by
  unfold instrAt at h
  split at h
  · cases h
  · exact (List.getElem?_eq_some_iff.1 ‹_›).1

/-- `s` works on `i`: its engine is sound, and its index is that of `pc`, where `i` stands (R133). -/
structure WorksOn (i : Instr) (s : State) : Prop where
  engine : EngineInv s.prog s.snapshot
  index_eq : s.instructionIndex = s.pc.toNat / 4
  instr : instrAt s.prog s.instructionIndex = some i

/-- Writing the index of the selected instruction gives a state that works on it (R133). -/
theorem worksOn_selected {s : State} {i : Instr} (h : EngineInv s.prog s.snapshot) (hi : s.current = some i) :
    WorksOn i { s with instructionIndex := s.fetchIndex } := by
  cases hb : s.atBoundary with
  | true =>
    exact ⟨.of_boundary hb h.mem_wf h.mem_bounded h.pc_aligned h.flagWrite_false,
      by simp [State.fetchIndex, hb], hi⟩
  | false =>
    have hindex : s.fetchIndex = s.instructionIndex := by simp [State.fetchIndex, hb]
    rw [State.current, hindex] at hi
    rw [hindex]
    exact ⟨h, (h.index_of_pc hb).1, hi⟩

/-! ## One phase -/

/-- FlagWrite is false in every row of the control table (R83). -/
theorem controlSignals_flagWrite (k : Kind) : (controlSignals k).flagWrite = false := by
  cases k <;> rfl

/-- A valid target is stored as a multiple of 4 (R124). -/
theorem ofInt_valid_aligned {target : Int} (h : validTarget target = true) :
    (BitVec.ofInt 64 target).toNat % 4 = 0 := by
  have hstored := toNat_ofInt_valid h
  obtain ⟨-, -, h4⟩ := validTarget_iff.1 h
  omega

section
variable {i : Instr} {s t : State}

/-- The canonical form of memory is kept (R29). -/
theorem exec_next_mem_wf (h : exec i s = .next t) (hs : s.mem.wf = true) : t.mem.wf = true := by
  cases exec_next_effect h with
  | store _ _ _ hwrite => exact wf_memWrite hs hwrite
  | _ => exact hs

/-- Memory stays in the address space (R30). -/
theorem exec_next_mem_bounded (h : exec i s = .next t) (hs : s.mem.bounded = true) : t.mem.bounded = true := by
  cases exec_next_effect h with
  | store _ _ _ hwrite => exact bounded_memWrite hs hwrite
  | _ => exact hs

/-- `pc` stays a multiple of 4 (R14). -/
theorem exec_next_pc_aligned (h : exec i s = .next t) (hs : s.pc.toNat % 4 = 0) : t.pc.toNat % 4 = 0 := by
  cases exec_next_effect h with
  | updatePC _ hvalid => exact ofInt_valid_aligned hvalid
  | _ => exact hs

/-- FlagWrite stays false (R83). -/
theorem exec_next_flagWrite (h : exec i s = .next t) (hs : s.ctrl.flagWrite = false) :
    t.ctrl.flagWrite = false := by
  cases exec_next_effect h with
  | fetch => rfl
  | decode => exact controlSignals_flagWrite i.kind
  | _ => exact hs

/-- Inside the instruction `pc` is the one the instruction began with (R133, R141). -/
theorem exec_next_pc_inside (h : exec i s = .next t) (ht : t.microStep.boundary = false) : t.pc = s.pc := by
  refine exec_next_pc h fun hm => ?_
  rw [exec_next_microStep h, hm] at ht
  cases ht

/-- After Fetch the control signals are false (R136). -/
theorem exec_next_ctrl_fetch (h : exec i s = .next t) (ht : t.microStep = .phase .fetch) :
    t.ctrl = ControlSignals.clear := by
  cases exec_next_effect h with
  | fetch => rfl
  | _ => cases ht

/-- From Decode to WriteBack the control signals are those of the kind (R137). -/
theorem WorksOn.next_ctrl (hs : WorksOn i s) (h : exec i s = .next t) (hb : t.microStep.boundary = false)
    (hm : t.microStep ≠ .phase .fetch) : t.ctrl = controlSignals i.kind := by
  cases exec_next_effect h with
  | fetch => exact absurd rfl hm
  | decode => rfl
  | updatePC => cases hb
  | alu hlast | idleExecute hlast | load hlast | store hlast | idleMemory hlast | writeBack hlast
  | idleWriteBack hlast =>
    exact hs.engine.ctrl_decoded i (congrArg MicroStep.boundary hlast) (by simp [hlast]) hs.instr

/-- After Execute of a kind other than B, and after its Memory, the ALU latch is present (R138, R139). -/
theorem WorksOn.next_aluResult (hs : WorksOn i s) (h : exec i s = .next t)
    (hm : t.microStep = .phase .execute ∨ t.microStep = .phase .memory) (hk : i.kind ≠ .b) :
    t.aluResult.isSome = true := by
  cases exec_next_effect h with
  | alu => rfl
  | idleExecute _ hb => exact absurd hb hk
  | load hlast | store hlast | idleMemory hlast => exact hs.engine.alu_latch i (.inl hlast) hs.instr hk
  | fetch | decode | writeBack | idleWriteBack | updatePC => rcases hm with hm | hm <;> cases hm

/-- After Memory of LDUR the load latch is present (R139). -/
theorem exec_next_memData_present (h : exec i s = .next t) (hm : t.microStep = .phase .memory)
    (hk : i.kind = .ldur) : t.memData.isSome = true := by
  cases exec_next_effect h with
  | load => rfl
  | store _ hstur => simp [hk] at hstur
  | idleMemory _ hne => exact absurd hk hne
  | _ => cases hm

/-- A phase of the instruction at work keeps the engine's part of the invariant. -/
theorem WorksOn.next_engineInv (hs : WorksOn i s) (h : exec i s = .next t) : EngineInv s.prog t.snapshot := by
  have hindex := exec_next_instructionIndex h
  have hunique : ∀ {j}, instrAt s.prog t.instructionIndex = some j → i = j := fun hj =>
    Option.some.inj (hs.instr.symm.trans (hindex ▸ hj))
  exact
    { mem_wf := exec_next_mem_wf h hs.engine.mem_wf
      mem_bounded := exec_next_mem_bounded h hs.engine.mem_bounded
      pc_aligned := exec_next_pc_aligned h hs.engine.pc_aligned
      flagWrite_false := exec_next_flagWrite h hs.engine.flagWrite_false
      index_of_pc := fun hb => by
        rw [snapshot_instructionIndex, snapshot_pc, hindex, exec_next_pc_inside h hb]
        exact ⟨hs.index_eq, lt_length_of_instrAt hs.instr⟩
      ctrl_fetch := exec_next_ctrl_fetch h
      ctrl_decoded := fun j hb hm hj => by
        obtain rfl := hunique hj
        exact hs.next_ctrl h hb hm
      alu_latch := fun j hm hj hk => by
        obtain rfl := hunique hj
        exact hs.next_aluResult h hm hk
      mem_latch := fun j hm hj hk => by
        obtain rfl := hunique hj
        exact exec_next_memData_present h hm hk }

end

/-! ## Recording -/

theorem length_keptHistory_le (h : List Snapshot) (cur : Option Nat) : (keptHistory h cur).length ≤ h.length := by
  cases cur with
  | none => exact Nat.le_refl _
  | some c => exact List.length_take_le' _ _

theorem tailCursor_eq_none {h : List Snapshot} (hn : tailCursor h = none) : h = [] := by
  unfold tailCursor at hn
  split at hn
  · exact List.length_eq_zero_iff.1 ‹_›
  · cases hn

/-- The cursor at the tail points at the last snapshot (R162). -/
theorem getElem?_tailCursor {h : List Snapshot} {c : Nat} (hc : tailCursor h = some c) : h[c]? = h.getLast? := by
  unfold tailCursor at hc
  split at hc
  · cases hc
  · cases hc
    exact List.getLast?_eq_getElem?.symm

/-- Recording a sound engine that is not Idle keeps the invariant (R163). -/
theorem State.Inv.record_restore {s : State} {e : Snapshot} (hs : s.Inv) (he : EngineInv s.prog e)
    (hidle : e.microStep ≠ .idle) : (record (s.restore e)).Inv where
  engine := he
  prog_short := hs.prog_short
  prog_admissible := hs.prog_admissible
  histMax_pos := hs.histMax_pos
  hist_bounded := length_appendBounded_le ((length_keptHistory_le _ _).trans hs.hist_bounded)
  hist_sound x hx := by
    rcases mem_appendBounded hx with hkept | rfl
    · exact hs.hist_sound x (mem_keptHistory hkept)
    · exact ⟨he, hidle⟩
  cursor_none := tailCursor_eq_none
  cursor_here c hc := (getElem?_tailCursor hc).trans (getLast?_appendBounded hs.histMax_pos)
  bp_rising := hs.bp_rising
  bp_positive := hs.bp_positive

/-! ## One step -/

/-- Settles O49: a step at completion changes nothing; any other records the engine that one phase of the
selected instruction leaves. -/
theorem stepKeepsInvariant : Obligations.StepKeepsInvariant := by
  intro s t hs hstep
  obtain ⟨-, rfl⟩ | ⟨-, i, u, hi, hu, rfl⟩ := step_next.1 hstep
  · exact hs
  · have hengine : EngineInv s.prog u.snapshot := (worksOn_selected hs.engine hi).next_engineInv hu
    have hperformed : u.snapshot.microStep ≠ .idle := by
      rw [snapshot_microStep, exec_next_microStep hu]
      nofun
    rw [exec_next_eq_restore hu]
    exact hs.record_restore hengine hperformed

end Sys2Proof.Machine
end

