-- ==== Sys2Proof/Proofs/DataMemory.lean ====
section
/-! PROOF. What an access to data memory answers and what it stores, byte by byte, and when it faults
(20_memory.md R33 to R37, R49). -/

namespace Sys2Proof.Machine

open Sys2Proof.Laws

/-! ## The bytes written -/

/-- Byte `k` of the bytes written is byte `k` of the number. -/
theorem readByte_writeLE_inside {m : Memory} (hm : m.wf = true) (a n v : Nat) {k : Nat} (hk : k < n) :
    (m.writeLE a n v).readByte (a + k) = BitVec.ofNat 8 (v / 256 ^ k) := by
  induction n generalizing m a v k with
  | zero => cases hk
  | succ n ih =>
    have hwf := wf_writeByte hm a (BitVec.ofNat 8 v)
    cases k with
    | zero =>
      calc ((m.writeByte a (BitVec.ofNat 8 v)).writeLE (a + 1) n (v / 256)).readByte a
        _ = (m.writeByte a (BitVec.ofNat 8 v)).readByte a :=
          readByte_writeLE_outside hwf _ _ _ _ (.inl (Nat.lt_succ_self a))
        _ = BitVec.ofNat 8 v := by rw [readByte_writeByte hm, if_pos rfl]
        _ = BitVec.ofNat 8 (v / 256 ^ 0) := by rw [pow_zero, Nat.div_one]
    | succ k =>
      rw [Memory.writeLE, ← Nat.add_assoc, Nat.add_right_comm, ih hwf (a + 1) (v / 256) (by omega),
        Nat.div_div_eq_div_mul, pow_succ']

/-- Byte `k` of a word, as a bit range and as a number. -/
theorem ofNat_div_eq_extractLsb' (v : Word) (k : Nat) :
    BitVec.ofNat 8 (v.toNat / 256 ^ k) = v.extractLsb' (8 * k) 8 := by
  rw [BitVec.extractLsb', Nat.shiftRight_eq_div_pow, pow_mul]
  rfl

/-! ## The value read -/

/-- The value read is the sum of its bytes, byte `k` at weight 256^k (R33). -/
theorem readLE_eq_sum (m : Memory) (a n : Nat) :
    m.readLE a n = ∑ k ∈ Finset.range n, (m.readByte (a + k)).toNat * 256 ^ k := by
  induction n generalizing a with
  | zero => rfl
  | succ n ih =>
    rw [Memory.readLE, ih, Finset.sum_range_succ', Finset.mul_sum, Nat.add_comm]
    congr 1
    · refine Finset.sum_congr rfl fun k _ => ?_
      rw [Nat.add_right_comm, Nat.add_assoc, pow_succ', Nat.mul_left_comm]
    · simp

/-- `n` bytes hold a number below 256^n. -/
theorem readLE_lt (m : Memory) (a n : Nat) : m.readLE a n < 256 ^ n := by
  induction n generalizing a with
  | zero => exact Nat.one_pos
  | succ n ih =>
    have hbyte : (m.readByte a).toNat < 256 := (m.readByte a).isLt
    have hrest := ih (a + 1)
    rw [Memory.readLE, pow_succ']
    omega

/-- Reading the bytes just written gives the number modulo 256^n. -/
theorem readLE_writeLE {m : Memory} (hm : m.wf = true) (a n v : Nat) :
    (m.writeLE a n v).readLE a n = v % 256 ^ n := by
  induction n generalizing m a v with
  | zero => exact (Nat.mod_one v).symm
  | succ n ih =>
    have hfirst : (m.writeLE a (n + 1) v).readByte a = BitVec.ofNat 8 v := by
      simpa using readByte_writeLE_inside hm a (n + 1) v n.succ_pos
    have hrest : (m.writeLE a (n + 1) v).readLE (a + 1) n = v / 256 % 256 ^ n :=
      ih (wf_writeByte hm a _) (a + 1) (v / 256)
    rw [Memory.readLE, hfirst, hrest, pow_succ']
    exact Nat.mod_mul.symm

theorem bytes_le_eight (width : AccessWidth) : width.bytes ≤ 8 := by
  cases width <;> decide

/-- No access reads more than a word holds. -/
theorem toNat_ofNat_readLE (m : Memory) (a : Nat) (width : AccessWidth) :
    (BitVec.ofNat 64 (m.readLE a width.bytes)).toNat = m.readLE a width.bytes :=
  Nat.mod_eq_of_lt <| (readLE_lt m a width.bytes).trans_le <|
    Nat.pow_le_pow_right (n := 256) (by decide) (bytes_le_eight width)

/-! ## Faults of an access -/

/-- An access is refused where it is misaligned under `ALIGN_CHECK` (R36) or passes the top of the address
space (R37). -/
theorem accessFaults_iff {c : Bool} {a : Word} {width : AccessWidth} :
    accessFaults c a width = true ↔
      (c = true ∧ width.bytes > 1 ∧ a.toNat % width.bytes ≠ 0) ∨ a.toNat + width.bytes - 1 > 2 ^ 64 - 1 := by
  have hwide : a.toNat % width.bytes ≠ 0 → width.bytes > 1 := by
    cases width with
    | byte => exact fun h => absurd (Nat.mod_one _) h
    | half | word | doubleword => exact fun _ => by decide
  simp only [accessFaults, misaligned, outOfRange, Bool.or_eq_true, Bool.and_eq_true, decide_eq_true_eq]
  exact or_congr_left ⟨fun ⟨hrem, hc⟩ => ⟨hc, hwide hrem, hrem⟩, fun ⟨hc, _, hrem⟩ => ⟨hrem, hc⟩⟩

/-- `memRead` fails with its own address exactly where the access is refused. -/
theorem memRead_error {c : Bool} {m : Memory} {a : Word} {width : AccessWidth} {f : Fault} :
    memRead c m a width = .error f ↔ f = .memoryAccessError a ∧ accessFaults c a width = true := by
  unfold memRead
  cases accessFaults c a width <;> simp [eq_comm]

/-- `memWrite` fails with its own address exactly where the access is refused. -/
theorem memWrite_error {c : Bool} {m : Memory} {a v : Word} {width : AccessWidth} {f : Fault} :
    memWrite c m a width v = .error f ↔ f = .memoryAccessError a ∧ accessFaults c a width = true := by
  unfold memWrite
  cases accessFaults c a width <;> simp [eq_comm]

/-! ## The statements -/

/-- Settles O14: the bytes just written are read back, and eight bytes hold every word. -/
theorem dataMemoryRoundTrip : Obligations.DataMemoryRoundTrip := by
  intro c m m' a v width hm hwrite
  obtain ⟨hadmitted, rfl⟩ := memWrite_ok.1 hwrite
  have hback := readLE_writeLE hm a.toNat width.bytes v.toNat
  refine ⟨⟨_, memRead_ok.2 ⟨hadmitted, rfl⟩, (toNat_ofNat_readLE _ _ _).trans hback⟩, ?_⟩
  rintro rfl
  have hword : v.toNat % 256 ^ AccessWidth.doubleword.bytes = v.toNat := Nat.mod_eq_of_lt v.isLt
  refine memRead_ok.2 ⟨hadmitted, ?_⟩
  rw [hback, hword, BitVec.ofNat_toNat, BitVec.setWidth_eq]

/-- Settles O15: inside the width the bytes are those of the value, outside it memory is as before. -/
theorem storedBytesLittleEndian : Obligations.StoredBytesLittleEndian := by
  intro c m m' a v width hm hwrite
  have hwf := wf_memWrite hm hwrite
  obtain ⟨-, rfl⟩ := memWrite_ok.1 hwrite
  exact ⟨fun k hk => (readByte_writeLE_inside hm _ _ _ hk).trans (ofNat_div_eq_extractLsb' v k),
    readByte_writeLE_outside hm _ _ _, hwf⟩

/-- Settles O16: the sum fits into a word, so the load does not cut it. -/
theorem loadedValueIsByteSum : Obligations.LoadedValueIsByteSum := by
  intro c m a v width hread
  obtain ⟨-, rfl⟩ := memRead_ok.1 hread
  rw [toNat_ofNat_readLE, readLE_eq_sum]

/-- Settles O17: a read and a write are refused under the same condition. -/
theorem accessFaultConditions : Obligations.AccessFaultConditions := by
  intro c m a v width f
  exact ⟨memRead_error.trans (and_congr_right' accessFaults_iff),
    memWrite_error.trans (and_congr_right' accessFaults_iff)⟩

end Sys2Proof.Machine
end

