-- ==== Sys2Proof/Proofs/StoreFrames.lean ====
section
/-! PROOF. Data memory is written by the Memory phase of STUR only, and the instruction store, the
parameters and the breakpoints by no step (20_memory.md R38, R46; 44_sequencer.md R139). -/

namespace Sys2Proof.Machine

open Sys2Proof.Laws

section
variable {i : Instr} {s t : State}

/-- Data memory is written in the Memory phase of STUR only (R38, R139). -/
theorem exec_next_mem (h : exec i s = .next t) (hm : i.kind ≠ .stur ∨ s.microStep ≠ .phase .execute) :
    t.mem = s.mem := by
  cases exec_next_effect h with
  | store hex hk => exact (hm.elim (· hk) (· hex)).elim
  | _ => rfl

/-- A byte outside the eight from the latched address reads as before (R34, R139). -/
theorem exec_next_readByte (hwf : s.mem.wf = true) (h : exec i s = .next t) {a : Word}
    (ha : s.aluResult = some a) {d : Nat} (hd : d < a.toNat ∨ a.toNat + 8 ≤ d) :
    t.mem.readByte d = s.mem.readByte d := by
  cases exec_next_effect h with
  | store _ _ hlatch hwrite =>
    obtain rfl := Option.some.inj (ha.symm.trans hlatch)
    obtain ⟨-, rfl⟩ := memWrite_ok.1 hwrite
    exact readByte_writeLE_outside hwf _ _ _ _ hd
  | _ => rfl

end

/-- Settles O39: the one phase that stores does so within the eight bytes from the latch. -/
theorem memoryFrame : Obligations.MemoryFrame := by
  intro i s t hwf h
  exact ⟨exec_next_mem h, fun a d ha hd => exec_next_readByte hwf h ha hd⟩

/-- Settles O47: a phase changes the engine only, and recording the history only. -/
theorem stepNeverWritesProgram : Obligations.StepNeverWritesProgram := by
  intro s t hstep
  obtain ⟨-, rfl⟩ | ⟨-, i, u, -, hu, rfl⟩ := step_next.1 hstep
  · exact ⟨rfl, rfl, rfl⟩
  · rw [record_prog, record_params, record_bp, exec_next_eq_restore hu]
    exact ⟨rfl, rfl, rfl⟩

end Sys2Proof.Machine
end

