-- ==== Sys2Proof/Proofs/OpcodeMap.lean ====
section
/-! PROOF. The opcode map: its rows exclude each other, so the first row that matches is the only one, and
matching a row is comparing the masked word (30_encoding.md R60, R61). -/

namespace Sys2Proof

/-! ## The words of a row -/

/-- The least word of a row: every bit below the opcode is 0 (R60, `match`). -/
def OpcodeRow.first (row : OpcodeRow) : Nat := row.opcode * 2 ^ row.lo

/-- The greatest word of a row: every bit below the opcode is 1. -/
def OpcodeRow.last (row : OpcodeRow) : Nat := row.first + 2 ^ row.lo - 1

theorem OpcodeRow.matchesWord_iff {row : OpcodeRow} {w : InstrWord} :
    row.matchesWord w = true ↔ row.first ≤ w.toNat ∧ w.toNat ≤ row.last :=
  beq_iff_eq.trans (Nat.div_eq_iff (Nat.two_pow_pos row.lo))

theorem opcodeRow_mem_opcodeTable (k : Kind) : opcodeRow k ∈ opcodeTable := by
  cases k <;> decide

/-- The table has one row for each kind. -/
theorem eq_opcodeRow_of_mem : ∀ row ∈ opcodeTable, row = opcodeRow row.kind := by decide

/-- The words of two rows do not overlap. -/
theorem opcodeTable_apart : ∀ row ∈ opcodeTable, ∀ row' ∈ opcodeTable,
    row = row' ∨ row.last < row'.first ∨ row'.last < row.first := by decide

/-- At most one row matches a word (R61). -/
theorem eq_of_matchesWord {w : InstrWord} {row row' : OpcodeRow} (hmem : row ∈ opcodeTable)
    (hmem' : row' ∈ opcodeTable) (h : row.matchesWord w = true) (h' : row'.matchesWord w = true) :
    row = row' := by
  obtain ⟨hfirst, hlast⟩ := OpcodeRow.matchesWord_iff.1 h
  obtain ⟨hfirst', hlast'⟩ := OpcodeRow.matchesWord_iff.1 h'
  refine (opcodeTable_apart row hmem row' hmem').resolve_right ?_
  omega

/-- A word is of the kind whose row it matches, whatever the order of the rows (R61). -/
theorem kindOf_eq_some_iff {w : InstrWord} {k : Kind} :
    kindOf w = some k ↔ (opcodeRow k).matchesWord w = true := by
  have hmatches {row : OpcodeRow} (h : opcodeTable.find? (OpcodeRow.matchesWord · w) = some row) :
      row.matchesWord w = true := List.find?_some (p := (OpcodeRow.matchesWord · w)) h
  simp only [kindOf, Option.map_eq_some_iff]
  constructor
  · rintro ⟨row, hfind, rfl⟩
    rw [← eq_opcodeRow_of_mem row (List.mem_of_find?_eq_some hfind)]
    exact hmatches hfind
  · intro hk
    have hmem := opcodeRow_mem_opcodeTable k
    have hfound : (opcodeTable.find? (OpcodeRow.matchesWord · w)).isSome = true :=
      List.find?_isSome.2 ⟨_, hmem, hk⟩
    obtain ⟨row, hfind⟩ := Option.isSome_iff_exists.1 hfound
    obtain rfl := eq_of_matchesWord (List.mem_of_find?_eq_some hfind) hmem (hmatches hfind) hk
    exact ⟨_, hfind, rfl⟩

/-- The opcode bits of a word of a kind are the opcode of the kind. -/
theorem opcode_of_kindOf {w : InstrWord} {k : Kind} (h : kindOf w = some k) :
    w.toNat / 2 ^ k.format.opcodeLo = k.opcode :=
  beq_iff_eq.1 (kindOf_eq_some_iff.1 h)

/-! ## The mask -/

/-- A row's mask has a 1 at `lo` and above. -/
theorem maskBits_opcodeRow (k : Kind) :
    (opcodeRow k).maskBits = BitVec.allOnes 32 <<< (opcodeRow k).lo := by
  cases k <;> rfl

/-- The least word of a row is one of the 32-bit words. -/
theorem first_opcodeRow_lt (k : Kind) : (opcodeRow k).first < 2 ^ 32 := by
  cases k <;> decide

/-- The masked word is the opcode bits with 0 below them. -/
theorem toNat_and_maskBits (w : InstrWord) (k : Kind) :
    (w &&& (opcodeRow k).maskBits).toNat = w.toNat / 2 ^ (opcodeRow k).lo * 2 ^ (opcodeRow k).lo := by
  have hle := Nat.div_mul_le_self w.toNat (2 ^ (opcodeRow k).lo)
  rw [maskBits_opcodeRow, ← BitVec.shiftLeft_ushiftRight, BitVec.toNat_shiftLeft, BitVec.toNat_ushiftRight,
    Nat.shiftRight_eq_div_pow, Nat.shiftLeft_eq]
  exact Nat.mod_eq_of_lt (hle.trans_lt w.isLt)

/-- Matching a row is comparing the masked word with the row's match value (R61). -/
theorem matchesWord_iff_and_maskBits {w : InstrWord} {k : Kind} :
    (opcodeRow k).matchesWord w = true ↔ w &&& (opcodeRow k).maskBits = (opcodeRow k).matchBits := by
  have hmatch : (opcodeRow k).matchBits.toNat = (opcodeRow k).opcode * 2 ^ (opcodeRow k).lo :=
    Nat.mod_eq_of_lt (first_opcodeRow_lt k)
  rw [BitVec.toNat_eq, toNat_and_maskBits, hmatch, Nat.mul_left_inj (Nat.two_pow_pos _).ne']
  exact beq_iff_eq

/-- Settles O2: the row that matches a word is the only one. -/
theorem opcodeMapIsMaskAndMatch : Obligations.OpcodeMapIsMaskAndMatch :=
  ⟨fun _ _ => kindOf_eq_some_iff.trans matchesWord_iff_and_maskBits, rfl⟩

end Sys2Proof
end

