-- ==== Sys2Proof/Proofs/Codec.lean ====
section
/-! PROOF. The codec: which words the decoder takes and how it rejects the others, and that decoding,
encoding and the display's field extraction agree (30_encoding.md R52 to R66, R78). -/

namespace Sys2Proof

open Sys2Proof.Laws

/-! ## What the decoder answers -/

theorem decode_eq_ok_iff {w : InstrWord} {i : Instr} :
    decode w = .ok i ↔ ∃ k, kindOf w = some k ∧ unownedBits k.format w = 0 ∧ instrOf k w = i := by
  unfold decode
  cases kindOf w with
  | none => simp
  | some k => by_cases hu : unownedBits k.format w = 0 <;> simp [hu]

theorem decode_eq_undefinedWord_iff {w : InstrWord} : decode w = .error .undefinedWord ↔ kindOf w = none := by
  unfold decode
  cases kindOf w with
  | none => simp
  | some k => by_cases hu : unownedBits k.format w = 0 <;> simp [hu]

theorem decode_eq_reservedWord_iff {w : InstrWord} :
    decode w = .error .reservedWord ↔ ∃ k, kindOf w = some k ∧ unownedBits k.format w ≠ 0 := by
  unfold decode
  cases kindOf w with
  | none => simp
  | some k => by_cases hu : unownedBits k.format w = 0 <;> simp [hu]

/-! ## The bits no field owns -/

/-- A field read as a number and as a bit range. -/
theorem bitField_eq_extractLsb' (w : InstrWord) (hi lo : Nat) :
    bitField w hi lo = (w.extractLsb' lo (hi + 1 - lo)).toNat := by
  rw [BitVec.extractLsb'_toNat, Nat.shiftRight_eq_div_pow, bitField]

/-- The unowned bits are those of the R format at [15:10] and of the D format at [11:10] (R66). -/
theorem unownedBits_eq_zero_iff {f : Format} {w : InstrWord} :
    unownedBits f w = 0 ↔
      (f = .r → w.extractLsb' 10 6 = 0#6) ∧ (f = .d → w.extractLsb' 10 2 = 0#2) := by
  cases f <;> simp [unownedBits, bitField_eq_extractLsb', BitVec.toNat_eq]

theorem unownedBits_ne_zero_iff {f : Format} {w : InstrWord} :
    unownedBits f w ≠ 0 ↔
      (f = .r ∧ w.extractLsb' 10 6 ≠ 0#6) ∨ (f = .d ∧ w.extractLsb' 10 2 ≠ 0#2) := by
  rw [Ne, unownedBits_eq_zero_iff, not_and_or, Classical.not_imp, Classical.not_imp]

/-- Settles O3: the decoder's test for zero reads the raw bit ranges. -/
theorem admissibleWordsAreCanonical : Obligations.AdmissibleWordsAreCanonical := by
  intro w
  refine ⟨?_, decode_eq_undefinedWord_iff, ?_⟩
  · simp only [decode_eq_ok_iff, ← unownedBits_eq_zero_iff]
    exact ⟨fun ⟨_, k, hk, hu, _⟩ => ⟨k, hk, hu⟩, fun ⟨k, hk, hu⟩ => ⟨_, k, hk, hu, rfl⟩⟩
  · simp only [decode_eq_reservedWord_iff, unownedBits_ne_zero_iff]

/-! ## Immediates -/

theorem fitsSigned_iff {n : Nat} {v : Int} :
    fitsSigned n v = true ↔ -(2 : Int) ^ (n - 1) ≤ v ∧ v < (2 : Int) ^ (n - 1) := by
  simp [fitsSigned]

/-- The pattern of an immediate is its remainder modulo 2^n (R62). -/
theorem natCast_immPattern (n : Nat) (imm : Int) : (immPattern n imm : Int) = imm % (2 ^ n : Nat) := by
  rw [Nat.cast_pow, Nat.cast_two, immPattern, Int.toNat_of_nonneg (Int.emod_nonneg imm (by positivity))]

section
variable {n : Nat} (hn : 0 < n)
include hn

/-- Sign extension is the balanced remainder (R57). -/
theorem signExtend_eq_bmod {v : Nat} (hv : v < 2 ^ n) : signExtend n v = Int.bmod v (2 ^ n) := by
  have hhalf := mul_pow_sub_one hn.ne' (2 : Int)
  have hrem : (v : Int) % (2 ^ n : Nat) = v := Int.emod_eq_of_lt v.cast_nonneg (Int.ofNat_lt.2 hv)
  rw [signExtend, Int.bmod_def, hrem, Nat.cast_pow, Nat.cast_two]
  congr 1
  zify
  rw [← hhalf]
  apply propext
  omega

/-- A field value is read as a number in the signed range of the field. -/
theorem fitsSigned_signExtend {v : Nat} (hv : v < 2 ^ n) : fitsSigned n (signExtend n v) = true := by
  have hhalf := mul_pow_sub_one hn.ne' (2 : Int)
  have hlo := Int.le_bmod (x := v) (Nat.two_pow_pos n)
  have hhi := Int.bmod_lt (x := v) (Nat.two_pow_pos n)
  rw [Nat.cast_pow, Nat.cast_two, ← hhalf] at hlo hhi
  rw [signExtend_eq_bmod hn hv, fitsSigned_iff]
  omega

/-- An immediate in the signed range of the field is its own balanced remainder. -/
theorem bmod_of_fitsSigned {imm : Int} (h : fitsSigned n imm = true) : Int.bmod imm (2 ^ n) = imm := by
  have hhalf := mul_pow_sub_one hn.ne' (2 : Int)
  obtain ⟨hlo, hhi⟩ := fitsSigned_iff.1 h
  apply Int.bmod_eq_of_le_mul_two <;> push_cast <;> omega

/-- A field holds the pattern of an immediate exactly if it is read as the immediate, negative values
included (R57, R62, R63). -/
theorem eq_immPattern_iff {v : Nat} {imm : Int} (hv : v < 2 ^ n) (h : fitsSigned n imm = true) :
    v = immPattern n imm ↔ signExtend n v = imm := by
  rw [signExtend_eq_bmod hn hv, ← Nat.cast_inj (R := Int), natCast_immPattern]
  constructor
  · intro hpattern
    rw [hpattern, Int.emod_bmod, bmod_of_fitsSigned hn h]
  · rintro rfl
    rw [Int.bmod_emod, Int.emod_eq_of_lt v.cast_nonneg (Int.ofNat_lt.2 hv)]

end

/-! ## The fields of a word -/

theorem bitField_lt (w : InstrWord) (hi lo : Nat) : bitField w hi lo < 2 ^ (hi + 1 - lo) :=
  Nat.mod_lt _ (Nat.two_pow_pos _)

theorem regField_eq_iff {w : InstrWord} {lo : Nat} {r : Reg} :
    regField w lo = r ↔ w.toNat / 2 ^ lo % 32 = r.val := by
  have hwidth : lo + 4 + 1 - lo = 5 := by omega
  simp [Fin.ext_iff, regField, bitField, hwidth]

section
variable {w : InstrWord} {k : Kind} {rd rn rm : Reg} {imm : Int}

theorem toNat_eq_encodeR_iff : w.toNat = encodeR k rd rn rm ↔
    w.toNat / 2 ^ 21 = k.opcode ∧ bitField w 15 10 = 0 ∧ rdField w = rd ∧ rnField w = rn ∧ rmField w = rm := by
  simp only [encodeR, rdField, rnField, rmField, regField_eq_iff, bitField]
  omega

theorem toNat_eq_encodeI_iff (h : fitsSigned 12 imm = true) : w.toNat = encodeI k rd rn imm ↔
    w.toNat / 2 ^ 22 = k.opcode ∧ rdField w = rd ∧ rnField w = rn ∧ imm12Field w = imm := by
  have hlt := immPattern_lt 12 imm
  rw [imm12Field, ← eq_immPattern_iff (n := 12) (by decide) (bitField_lt w 21 10) h]
  simp only [encodeI, rdField, rnField, regField_eq_iff, bitField]
  omega

theorem toNat_eq_encodeD_iff (h : fitsSigned 9 imm = true) : w.toNat = encodeD k rd rn imm ↔
    w.toNat / 2 ^ 21 = k.opcode ∧ bitField w 11 10 = 0 ∧ rdField w = rd ∧ rnField w = rn ∧ imm9Field w = imm := by
  have hlt := immPattern_lt 9 imm
  rw [imm9Field, ← eq_immPattern_iff (n := 9) (by decide) (bitField_lt w 20 12) h]
  simp only [encodeD, rdField, rnField, regField_eq_iff, bitField]
  omega

theorem toNat_eq_encodeB_iff (h : fitsSigned 26 imm = true) : w.toNat = encodeB k imm ↔
    w.toNat / 2 ^ 26 = k.opcode ∧ imm26Field w = imm := by
  have hlt := immPattern_lt 26 imm
  rw [imm26Field, ← eq_immPattern_iff (n := 26) (by decide) (bitField_lt w 25 0) h]
  simp only [encodeB, bitField]
  omega

theorem toNat_eq_encodeCB_iff (h : fitsSigned 19 imm = true) : w.toNat = encodeCB k rd imm ↔
    w.toNat / 2 ^ 24 = k.opcode ∧ rdField w = rd ∧ imm19Field w = imm := by
  have hlt := immPattern_lt 19 imm
  rw [imm19Field, ← eq_immPattern_iff (n := 19) (by decide) (bitField_lt w 23 5) h]
  simp only [encodeCB, rdField, regField_eq_iff, bitField]
  omega

end

/-! ## Decoding and encoding -/

/-- The number encoded fits an instruction word, for every kind (R62). -/
theorem encodeNat_lt (i : Instr) : encodeNat i < 2 ^ 32 :=
  match i with
  | .add rd rn rm => (EncodeOpcode.add rd rn rm).1
  | .sub rd rn rm => (EncodeOpcode.sub rd rn rm).1
  | .and rd rn rm => (EncodeOpcode.and rd rn rm).1
  | .orr rd rn rm => (EncodeOpcode.orr rd rn rm).1
  | .addi rd rn imm => (EncodeOpcode.addi rd rn imm).1
  | .subi rd rn imm => (EncodeOpcode.subi rd rn imm).1
  | .ldur rt rn imm => (EncodeOpcode.ldur rt rn imm).1
  | .stur rt rn imm => (EncodeOpcode.stur rt rn imm).1
  | .b offset => (EncodeOpcode.b offset).1
  | .cbz rt count => (EncodeOpcode.cbz rt count).1
  | .cbnz rt count => (EncodeOpcode.cbnz rt count).1

/-- A word is the encoding of a well-formed instruction exactly if it has the opcode of its kind, no
unowned bit set and the operands of the instruction in its fields. -/
theorem toNat_eq_encodeNat_iff {w : InstrWord} {i : Instr} (h : i.wellFormed = true) :
    w.toNat = encodeNat i ↔
      w.toNat / 2 ^ i.kind.format.opcodeLo = i.kind.opcode ∧ unownedBits i.kind.format w = 0 ∧
        instrOf i.kind w = i := by
  cases i with
  | add | sub | and | orr =>
    refine toNat_eq_encodeR_iff.trans ?_
    simp [Instr.kind, Kind.format, Format.opcodeLo, unownedBits, instrOf]
  | addi | subi =>
    refine (toNat_eq_encodeI_iff h).trans ?_
    simp [Instr.kind, Kind.format, Format.opcodeLo, unownedBits, instrOf]
  | ldur | stur =>
    refine (toNat_eq_encodeD_iff h).trans ?_
    simp [Instr.kind, Kind.format, Format.opcodeLo, unownedBits, instrOf]
  | b =>
    refine (toNat_eq_encodeB_iff h).trans ?_
    simp [Instr.kind, Kind.format, Format.opcodeLo, unownedBits, instrOf]
  | cbz | cbnz =>
    refine (toNat_eq_encodeCB_iff h).trans ?_
    simp [Instr.kind, Kind.format, Format.opcodeLo, unownedBits, instrOf]

/-- The operands read from a word are in range (R57). -/
theorem wellFormed_instrOf (k : Kind) (w : InstrWord) : (instrOf k w).wellFormed = true := by
  cases k with
  | add | sub | and | orr => rfl
  | addi | subi => exact fitsSigned_signExtend (by decide) (bitField_lt w 21 10)
  | ldur | stur => exact fitsSigned_signExtend (by decide) (bitField_lt w 20 12)
  | b => exact fitsSigned_signExtend (by decide) (bitField_lt w 25 0)
  | cbz | cbnz => exact fitsSigned_signExtend (by decide) (bitField_lt w 23 5)

theorem wellFormed_of_decode {w : InstrWord} {i : Instr} (h : decode w = .ok i) : i.wellFormed = true := by
  obtain ⟨k, -, -, rfl⟩ := decode_eq_ok_iff.1 h
  exact wellFormed_instrOf k w

/-- For a well-formed instruction, the one word that decodes to it is its encoding (R63). -/
theorem decode_eq_ok_iff_encode {w : InstrWord} {i : Instr} (h : i.wellFormed = true) :
    decode w = .ok i ↔ encode i = w := by
  have hencode : encode i = w ↔ w.toNat = encodeNat i := by
    rw [BitVec.toNat_eq, encode, BitVec.toNat_ofNat, Nat.mod_eq_of_lt (encodeNat_lt i), eq_comm]
  rw [hencode, toNat_eq_encodeNat_iff h, decode_eq_ok_iff]
  constructor
  · rintro ⟨k, hk, hu, rfl⟩
    rw [kind_instrOf]
    exact ⟨opcode_of_kindOf hk, hu, rfl⟩
  · rintro ⟨hk, hu, hi⟩
    exact ⟨i.kind, kindOf_eq_some_iff.2 (beq_iff_eq.2 hk), hu, hi⟩

theorem kindOf_of_decode {w : InstrWord} {i : Instr} (h : decode w = .ok i) : kindOf w = some i.kind := by
  obtain ⟨k, hk, -, rfl⟩ := decode_eq_ok_iff.1 h
  rw [kind_instrOf, hk]

/-- Settles O1: the encoding is the one word that decodes to a well-formed instruction. -/
theorem decodeInvertsEncode : Obligations.DecodeInvertsEncode := by
  refine ⟨fun i hi => ?_, fun w i h => ?_⟩
  · have hdecode : decode (encode i) = .ok i := (decode_eq_ok_iff_encode hi).2 rfl
    exact ⟨kindOf_of_decode hdecode, hdecode⟩
  · have hi := wellFormed_of_decode h
    exact ⟨hi, (decode_eq_ok_iff_encode hi).1 h⟩

/-! ## The display's field extraction -/

/-- The opcode field, cut at bit 31, holds all opcode bits. -/
theorem bitField_opcode {w : InstrWord} {k : Kind} (h : kindOf w = some k) :
    bitField w 31 k.format.opcodeLo = k.opcode := by
  have hopcode : k.opcode < 2 ^ (31 + 1 - k.format.opcodeLo) := by cases k <;> decide
  rw [bitField, opcode_of_kindOf h, Nat.mod_eq_of_lt hopcode]

/-- The opcode field is the one part of the extraction that the decoder does not read as an operand. -/
theorem fields_eq_withOpcode {w : InstrWord} {f : Format} {op : Nat} (h : bitField w 31 f.opcodeLo = op) :
    fields w f = { fields w f with opcode := op } := by
  subst h
  cases f <;> rfl

/-- Settles O6: the display reads the fields that the decoder reads. -/
theorem fieldExtractionOfEncodings : Obligations.FieldExtractionOfEncodings := by
  intro i hi
  obtain ⟨-, hdecode⟩ := decodeInvertsEncode.1 i hi
  generalize encode i = w at *
  obtain ⟨k, hk, hu, rfl⟩ := decode_eq_ok_iff.1 hdecode
  have hfields := fields_eq_withOpcode (bitField_opcode hk)
  rw [kind_instrOf, hfields]
  cases k with
  | add | sub | and | orr =>
    have hshamt : shamtField w = 0 := hu
    simp [fields, instrOf, Kind.format, Kind.opcode, hshamt]
  | _ => rfl

/-- Settles O5: each word has the opcode of its kind and the operands of its instruction. -/
theorem workedEncodingsDecode : Obligations.WorkedEncodingsDecode := by
  unfold Obligations.WorkedEncodingsDecode
  decide

end Sys2Proof
end

