-- ==== Sys2Proof/Proofs/StepRefusals.lean ====
section
/-! PROOF. What `step` refuses: an inadmissible word by name, and nothing in a state of the invariant
(30_encoding.md R65, R66; 44_sequencer.md R133, R139, R145). -/

namespace Sys2Proof.Machine

open Sys2Proof.Laws

/-! ## Inadmissible words -/

/-- The word at the selected index is refused for the reason the decoder rejects it. -/
theorem step_refused_of_decode {s : State} {e : ProgEntry} {err : DecodeError} (hc : s.completed = false)
    (he : s.prog[s.fetchIndex]? = some e) (hd : decode e.word = .error err) :
    step s = .refused (refusalOf err) := by
  have hselect : select s = .refuse (refusalOf err) := by simp [select, hc, he, hd]
  rw [step, hselect]

/-- Settles O4: the two rejections of the decoder are the two refusals of their names. -/
theorem stepRefusesInadmissibleWords : Obligations.StepRefusesInadmissibleWords :=
  fun _ _ hc he => ⟨step_refused_of_decode hc he, step_refused_of_decode hc he⟩

/-! ## Refusals of a phase -/

/-- A load is refused only where the ALU latch is absent (R139). -/
theorem loadPhase_refused {s : State} {r : Refusal} (h : loadPhase s = .refused r) : s.aluResult = none := by
  unfold loadPhase at h
  cases ha : s.aluResult with
  | none => rfl
  | some a => cases hread : memRead s.params.alignCheck s.mem a .doubleword <;> simp [ha, hread, raise] at h

/-- A store is refused only where the ALU latch is absent (R139). -/
theorem storePhase_refused {rt : Reg} {s : State} {r : Refusal} (h : storePhase rt s = .refused r) :
    s.aluResult = none := by
  unfold storePhase at h
  cases ha : s.aluResult with
  | none => rfl
  | some a =>
    cases hwrite : memWrite s.params.alignCheck s.mem a .doubleword (s.readReg rt) <;>
      simp [ha, hwrite, raise] at h

/-- A register is written back unless the latch is absent (R140). -/
theorem writeBackPhase_refused {rd : Reg} {latch : Option Word} {s : State} {r : Refusal}
    (h : writeBackPhase rd latch s = .refused r) : latch = none := by
  cases latch with
  | none => rfl
  | some v => cases h

theorem updatePCPhase_ne_refused (taken : Bool) (offset : Int) (s : State) (r : Refusal) :
    updatePCPhase taken offset s ≠ .refused r := by
  unfold updatePCPhase
  split <;> nofun

section
variable {i : Instr} {s : State} {r : Refusal}

/-- The Memory phase is refused only for want of the ALU latch, and never for B (R139). -/
theorem memoryPhaseOf_refused (h : memoryPhaseOf i s = .refused r) : s.aluResult = none ∧ i.kind ≠ .b := by
  cases i with
  | ldur => exact ⟨loadPhase_refused h, nofun⟩
  | stur => exact ⟨storePhase_refused h, nofun⟩
  | _ => cases h

/-- The WriteBack phase is refused only for want of the latch it writes back: that of the load for LDUR, of
the ALU for the other kinds but B (R140). -/
theorem writeBackPhaseOf_refused (h : writeBackPhaseOf i s = .refused r) :
    (s.memData = none ∧ i.kind = .ldur) ∨ (s.aluResult = none ∧ i.kind ≠ .b) := by
  cases i with
  | ldur => exact .inl ⟨writeBackPhase_refused h, rfl⟩
  | stur | b | cbz | cbnz => cases h
  | _ => exact .inr ⟨writeBackPhase_refused h, nofun⟩

/-- A phase of the instruction at work finds the latch it reads (R139). -/
theorem WorksOn.exec_ne_refused (hs : WorksOn i s) : exec i s ≠ .refused r := by
  intro h
  have halu (hm : s.microStep = .phase .execute ∨ s.microStep = .phase .memory) :
      ¬ (s.aluResult = none ∧ i.kind ≠ .b) := fun ⟨hnone, hb⟩ => by
    have hsome := hs.engine.alu_latch i hm hs.instr hb
    rw [snapshot_aluResult, hnone] at hsome
    cases hsome
  have hload (hm : s.microStep = .phase .memory) : ¬ (s.memData = none ∧ i.kind = .ldur) :=
      fun ⟨hnone, hk⟩ => by
    have hsome := hs.engine.mem_latch i hm hs.instr hk
    rw [snapshot_memData, hnone] at hsome
    cases hsome
  rw [exec_eq_performPhase] at h
  rcases hm : s.microStep with _ | _ | _ | _ | _ | _ | _ <;> rw [hm] at h
  case idle | phase.updatePC | phase.fetch => cases h
  case phase.decode => cases i <;> cases h
  case phase.execute => exact halu (.inl hm) (memoryPhaseOf_refused h)
  case phase.memory => exact (writeBackPhaseOf_refused h).elim (hload hm) (halu (.inr hm))
  case phase.writeBack => exact updatePCPhase_ne_refused _ _ _ _ h

end

/-! ## Refusals of a step -/

/-- The selected index lies in the program (R133). -/
theorem State.Inv.fetchIndex_lt {s : State} (hs : s.Inv) (hc : s.completed = false) :
    s.fetchIndex < s.prog.length := by
  cases hb : s.atBoundary with
  | true =>
    simp only [State.completed, hb, Bool.true_and, decide_eq_false_iff_not] at hc
    simp only [State.fetchIndex, hb]
    simpa using hc
  | false => simpa [State.fetchIndex, hb] using (hs.engine.index_of_pc hb).2

theorem decode_of_admissible {w : InstrWord} (h : admissible w = true) : ∃ i, decode w = .ok i := by
  unfold admissible at h
  split at h
  · exact ⟨_, ‹_›⟩
  · cases h

/-- In a state of the invariant that is not complete, `step` finds an instruction to work on. -/
theorem State.Inv.exists_current {s : State} (hs : s.Inv) (hc : s.completed = false) :
    ∃ i, s.current = some i := by
  have hget := List.getElem?_eq_getElem (hs.fetchIndex_lt hc)
  obtain ⟨i, hi⟩ := decode_of_admissible (hs.prog_admissible _ (List.getElem_mem (hs.fetchIndex_lt hc)))
  exact ⟨i, by simp [State.current, instrAt, hget, hi]⟩

/-- Settles O50: the selected word is an instruction, and its phase finds the latch it reads. -/
theorem invariantExcludesRefusal : Obligations.InvariantExcludesRefusal := by
  intro s r hs h
  cases hc : s.completed with
  | true => simp [step, select_completed.2 hc] at h
  | false =>
    obtain ⟨i, hi⟩ := hs.exists_current hc
    rw [step, select_perform.2 ⟨hc, hi, rfl⟩] at h
    cases hu : exec i { s with instructionIndex := s.fetchIndex } with
    | refused => exact (worksOn_selected hs.engine hi).exec_ne_refused hu
    | _ => simp [hu, recordNext] at h

end Sys2Proof.Machine
end

