-- ==== Sys2Proof/Proofs/Alu.lean ====
section
/-! PROOF. What the ALU answers: its result and its flags as statements about numbers
(40_control_alu.md R91 to R96). -/

namespace Sys2Proof.Machine

/-! ## N and Z -/

/-- N is the sign of the result read as a signed number (R92). -/
theorem flagN_iff {r : Word} : flagN r = true ↔ r.toInt < 0 := by
  rw [flagN, ← BitVec.msb_eq_getLsbD_last, BitVec.msb_eq_toInt, decide_eq_true_iff]

theorem flagZ_iff {r : Word} : flagZ r = true ↔ r.toNat = 0 :=
  beq_iff_eq.trans BitVec.toNat_eq

/-! ## The low halves -/

theorem low32_eq_toNat_setWidth (v : Word) : low32 v = (v.setWidth 32).toNat :=
  (BitVec.toNat_setWidth 32 v).symm

/-- Bit 31 is the sign of the low half. -/
theorem getLsbD_31_eq_msb_setWidth (v : Word) : v.getLsbD 31 = (v.setWidth 32).msb :=
  (BitVec.msb_setWidth (v := 32) v).symm

/-- The low half of a difference is the difference of the low halves. -/
theorem setWidth_32_sub (a b : Word) : (a - b).setWidth 32 = a.setWidth 32 - b.setWidth 32 := by
  rw [BitVec.sub_eq_add_neg, BitVec.setWidth_add _ _ (by decide), BitVec.setWidth_neg_of_le (by decide),
    ← BitVec.sub_eq_add_neg]

/-! ## V -/

/-- The bit test of R94 for a sum is the signed overflow of the sum of the low halves. -/
theorem flagV_add (a b : Word) :
    flagV a b (a + b) .add = (a.setWidth 32).saddOverflow (b.setWidth 32) := by
  rw [BitVec.saddOverflow_eq, ← BitVec.setWidth_add a b (by decide)]
  simp only [← getLsbD_31_eq_msb_setWidth, flagV]
  generalize a.getLsbD 31 = x, b.getLsbD 31 = y, (a + b).getLsbD 31 = z
  revert x y z
  decide

/-- The bit test of R94 for a difference is the signed overflow of the difference of the low halves. -/
theorem flagV_sub (a b : Word) :
    flagV a b (a - b) .sub = (a.setWidth 32).ssubOverflow (b.setWidth 32) := by
  rw [BitVec.ssubOverflow_eq, ← setWidth_32_sub]
  simp only [← getLsbD_31_eq_msb_setWidth, flagV]
  generalize a.getLsbD 31 = x, b.getLsbD 31 = y, (a - b).getLsbD 31 = z
  revert x y z
  decide

theorem saddOverflow_iff {x y : BitVec 32} : x.saddOverflow y = true ↔
    ¬ (-(2 : Int) ^ 31 ≤ x.toInt + y.toInt ∧ x.toInt + y.toInt < 2 ^ 31) := by
  simp only [BitVec.saddOverflow, Bool.or_eq_true, decide_eq_true_eq]
  omega

theorem ssubOverflow_iff {x y : BitVec 32} : x.ssubOverflow y = true ↔
    ¬ (-(2 : Int) ^ 31 ≤ x.toInt - y.toInt ∧ x.toInt - y.toInt < 2 ^ 31) := by
  simp only [BitVec.ssubOverflow, Bool.or_eq_true, decide_eq_true_eq]
  omega

/-! ## The statements -/

/-- Settles O10: the test on bit 31 is signed overflow of the 32-bit halves. -/
theorem aluOverflowIsOf32Bits : Obligations.AluOverflowIsOf32Bits := by
  intro a b
  refine ⟨?_, ?_, rfl, rfl⟩
  · rw [← saddOverflow_iff, ← flagV_add]
    rfl
  · rw [← ssubOverflow_iff, ← flagV_sub]
    rfl

/-- Settles O7: the operations on words are those modulo 2^64 and on each bit. -/
theorem aluResultIsArithmetic : Obligations.AluResultIsArithmetic := by
  intro a b
  refine ⟨BitVec.toNat_add a b, ?_, fun k => BitVec.getLsbD_and, fun k => BitVec.getLsbD_or⟩
  have hb := b.isLt
  have hsub : (compute a b .sub).result.toNat = (2 ^ 64 - b.toNat + a.toNat) % 2 ^ 64 := BitVec.toNat_sub a b
  omega

/-- Settles O8: for every operation both flags are read off the 64-bit result. -/
theorem aluNegativeAndZeroFlags : Obligations.AluNegativeAndZeroFlags :=
  fun _ _ _ => ⟨flagN_iff, flagZ_iff⟩

/-- Settles O9: the numbers compared are the low halves. -/
theorem aluCarryIsOf32Bits : Obligations.AluCarryIsOf32Bits := by
  intro a b
  simp only [← low32_eq_toNat_setWidth]
  exact ⟨decide_eq_true_iff, decide_eq_true_iff, rfl, rfl⟩

/-- Settles O11: the comparison writes the flags of R122, whose Z tests equality with 0. -/
theorem comparisonWithZero : Obligations.ComparisonWithZero :=
  compute_sub_zero

end Sys2Proof.Machine
end

