-- ==== Sys2Proof/Proofs/AddiSubi.lean ====
section
/-! PROOF. ADDI of a negated immediate is SUBI (40_control_alu.md R97): after five phases both stand in one
state, and the sixth is the same for both. -/

namespace Sys2Proof.Machine

/-! ## A chain has one end -/

/-- `n` phases from a state end in one state. -/
theorem ExecChain.unique {i : Instr} {n : Nat} {s t u : State} (ht : ExecChain i n s t)
    (hu : ExecChain i n s u) : t = u := by
  induction n generalizing s with
  | zero => exact ht.symm.trans hu
  | succ n ih =>
    obtain ⟨t₁, ht₁, ht⟩ := ht
    obtain ⟨u₁, hu₁, hu⟩ := hu
    obtain rfl := Host.Outcome.next.inj (ht₁.symm.trans hu₁)
    exact ih ht hu

/-- The last phase of a chain starts where the chain before it ends. -/
theorem ExecChain.exec_last {i : Instr} {n : Nat} {s t u : State} (ht : ExecChain i n s t)
    (hu : ExecChain i (n + 1) s u) : exec i t = .next u := by
  obtain ⟨t', ht', hlast⟩ := execChain_succ.1 hu
  rwa [ht.unique ht']

/-! ## The two instructions -/

section
variable {s : State} (hs : s.atBoundary = true) (rd rn : Reg) (imm : Int)
include hs

/-- Five phases of ADDI write the sum to `rd` (R104, R106). -/
theorem execChain_addi_writtenBack :
    ExecChain (.addi rd rn imm) 5 s (s.writtenBack (.addi rd rn imm) rd (s.readReg rn + immOperand imm)) :=
  execChain_decoded hs ⟨_, rfl, _, rfl, _, rfl, rfl⟩

/-- Five phases of SUBI write the difference to `rd` (R105, R106). -/
theorem execChain_subi_writtenBack :
    ExecChain (.subi rd rn imm) 5 s (s.writtenBack (.subi rd rn imm) rd (s.readReg rn - immOperand imm)) :=
  execChain_decoded hs ⟨_, rfl, _, rfl, _, rfl, rfl⟩

end

/-- Adding the pattern of `-k` is subtracting that of `k` (R97). -/
theorem add_immOperand_neg (x : Word) (k : Int) : x + immOperand (-k) = x - immOperand k := by
  rw [add_immOperand, sub_immOperand, Int.sub_eq_add_neg]

/-- ADDI with `-k` and SUBI with `k` write back the same value under the same control signals (R82, R97). -/
theorem writtenBack_addi_neg (s : State) (rd rn : Reg) (k : Int) :
    s.writtenBack (.addi rd rn (-k)) rd (s.readReg rn + immOperand (-k)) =
      s.writtenBack (.subi rd rn k) rd (s.readReg rn - immOperand k) := by
  rw [add_immOperand_neg]
  rfl

/-- In UpdatePC neither instruction branches, whatever its immediate (R106). -/
theorem exec_addi_eq_exec_subi {s : State} (hm : s.microStep = .phase .writeBack) (rd rn : Reg) (j k : Int) :
    exec (.addi rd rn j) s = exec (.subi rd rn k) s := by
  rw [exec_eq_performPhase, exec_eq_performPhase, hm]
  rfl

/-- Settles O12: both instructions reach the same state before UpdatePC, and there each goes on to
`pc + 4`; the bounds on the immediate are not needed. -/
theorem addiOfNegatedImmediateIsSubi : Obligations.AddiOfNegatedImmediateIsSubi := by
  intro rd rn k s t u _ _ hs haddi hsubi
  have ht := (execChain_addi_writtenBack hs rd rn (-k)).exec_last haddi
  have hu := (execChain_subi_writtenBack hs rd rn k).exec_last hsubi
  rw [writtenBack_addi_neg, exec_addi_eq_exec_subi rfl rd rn (-k) k] at ht
  exact Host.Outcome.next.inj (ht.symm.trans hu)

end Sys2Proof.Machine
end

