-- ==== Sys2Proof/Proofs/ArithLogic.lean ====
section
/-! PROOF. The six arithmetic and logic instructions complete: five phases write the result to `rd`, the
sixth goes on to `pc + 4` (41_arith_logic.md R100 to R106); and only a branch leaves the address space
(43_branch.md R124, 60_exceptions.md R188). -/

namespace Sys2Proof.Machine

open Sys2Proof.Laws

/-! ## Going on to the next instruction -/

/-- Only B, CBZ and CBNZ branch (R141). -/
theorem kind_of_shouldBranch {i : Instr} {s : State} (h : shouldBranch i s = true) :
    i.kind = .b ∨ i.kind = .cbz ∨ i.kind = .cbnz := by
  cases i with
  | b => exact .inl rfl
  | cbz => exact .inr (.inl rfl)
  | cbnz => exact .inr (.inr rfl)
  | _ => cases h

/-- A branch not taken leaves the control signals of the kind, whose PCSrc is false (R83, R141). -/
theorem controlSignals_withPCSrc_false (k : Kind) :
    { controlSignals k with pcSrc := false } = controlSignals k := by
  cases k <;> rfl

/-- Where no branch is taken, UpdatePC goes on to `pc + 4`, if `pc` can hold it (R106, R141). -/
theorem exec_fallThrough {i : Instr} {s : State} (hm : s.microStep = .phase .writeBack)
    (hstay : shouldBranch i s = false) (haligned : s.pc.toNat % 4 = 0) (hlt : s.pc.toNat + 4 < 2 ^ 64) :
    exec i s = .next { s with
      pc := s.pc + 4#64, ctrl := { s.ctrl with pcSrc := false }, microStep := .phase .updatePC } := by
  have hexec : exec i s = updatePCPhase false (branchOffset i) s := by
    rw [exec_eq_performPhase, hm, ← hstay]
    rfl
  have htarget : pcTarget s.pc false (branchOffset i) = s.pc.toNat + 4 := by simp [pcTarget]
  have hpc : s.pc + 4#64 = BitVec.ofInt 64 (s.pc.toNat + 4) := add_immOperand s.pc 4
  rw [hexec, updatePCPhase_next, htarget, hpc]
  exact ⟨validTarget_iff.2 (by omega), rfl⟩

/-! ## Completion -/

/-- An instruction that has written `v` to `rd` in five phases and does not branch completes at `pc + 4`,
under the control signals of its kind (R106). -/
theorem execChain_completes {i : Instr} {s : State} {rd : Reg} {v : Word}
    (h : ExecChain i 5 s (s.writtenBack i rd v)) (hstay : shouldBranch i (s.writtenBack i rd v) = false)
    (haligned : s.pc.toNat % 4 = 0) (hlt : s.pc.toNat + 4 < 2 ^ 64) :
    ExecChain i 6 s { s with
      regs := Regs.write s.regs rd v
      pc := s.pc + 4#64
      ctrl := controlSignals i.kind
      aluResult := some v
      microStep := .phase .updatePC } := by
  have hlast := exec_fallThrough rfl hstay haligned hlt
  rw [State.writtenBack, controlSignals_withPCSrc_false] at hlast
  exact execChain_succ.2 ⟨_, h, hlast⟩

/-- Settles O23: Execute latches the sum, WriteBack writes it. -/
theorem addCompletes : Obligations.AddCompletes := fun _ _ _ _ hs =>
  execChain_completes (execChain_decoded hs ⟨_, rfl, _, rfl, _, rfl, rfl⟩) rfl

/-- Settles O24: Execute latches the difference, WriteBack writes it. -/
theorem subCompletes : Obligations.SubCompletes := fun _ _ _ _ hs =>
  execChain_completes (execChain_decoded hs ⟨_, rfl, _, rfl, _, rfl, rfl⟩) rfl

/-- Settles O25: Execute latches the bitwise AND, WriteBack writes it. -/
theorem andCompletes : Obligations.AndCompletes := fun _ _ _ _ hs =>
  execChain_completes (execChain_decoded hs ⟨_, rfl, _, rfl, _, rfl, rfl⟩) rfl

/-- Settles O26: Execute latches the bitwise OR, WriteBack writes it. -/
theorem orrCompletes : Obligations.OrrCompletes := fun _ _ _ _ hs =>
  execChain_completes (execChain_decoded hs ⟨_, rfl, _, rfl, _, rfl, rfl⟩) rfl

/-- Settles O27: the sum with the immediate's pattern is the mathematical sum modulo 2^64. -/
theorem addiCompletes : Obligations.AddiCompletes := by
  intro rd rn imm s hs
  rw [← add_immOperand]
  exact execChain_completes (execChain_addi_writtenBack hs rd rn imm) rfl

/-- Settles O28: the difference with the immediate's pattern is the mathematical difference modulo 2^64. -/
theorem subiCompletes : Obligations.SubiCompletes := by
  intro rd rn imm s hs
  rw [← sub_immOperand]
  exact execChain_completes (execChain_subi_writtenBack hs rd rn imm) rfl

/-! ## Leaving the address space -/

section
variable {i : Instr} {s : State}

/-- The faults of the Memory phase are those of the access (R112, R182). -/
theorem memoryPhaseOf_fault {f : Fault} (h : memoryPhaseOf i s = .fault f) : ∃ a, f = .memoryAccessError a := by
  cases i with
  | ldur =>
    obtain ⟨a, -, hread⟩ := loadPhase_fault.1 h
    exact ⟨a, (memRead_error.1 hread).1⟩
  | stur =>
    obtain ⟨a, -, hwrite⟩ := storePhase_fault.1 h
    exact ⟨a, (memWrite_error.1 hwrite).1⟩
  | _ => cases h

theorem writeBackPhase_ne_fault (r : Reg) (latch : Option Word) (s : State) (f : Fault) :
    writeBackPhase r latch s ≠ .fault f := by
  cases latch <;> nofun

/-- `InvalidPCError` is raised by the UpdatePC phase only (R183). -/
theorem exec_invalidPCError_microStep {t : Int} (h : exec i s = .fault (.invalidPCError t)) :
    s.microStep = .phase .writeBack := by
  rw [exec_eq_performPhase] at h
  rcases hm : s.microStep with _ | _ | _ | _ | _ | _ | _ <;> simp only [hm] at h
  case idle | phase.updatePC | phase.fetch => cases h
  case phase.decode => cases i <;> cases h
  case phase.execute =>
    obtain ⟨a, ha⟩ := memoryPhaseOf_fault h
    cases ha
  case phase.memory =>
    cases i with
    | stur | b | cbz | cbnz => cases h
    | _ => exact absurd h (writeBackPhase_ne_fault _ _ _ _)
  case phase.writeBack => rfl

/-- In a program shorter than 2^62 the place after the instruction at work has an address (R23). -/
theorem WorksOn.pc_add_four_lt (hs : WorksOn i s) (hshort : s.prog.length < Config.progBound) :
    s.pc.toNat + 4 < 2 ^ 64 := by
  have hindex := lt_length_of_instrAt hs.instr
  have haligned : s.pc.toNat % 4 = 0 := hs.engine.pc_aligned
  rw [hs.index_eq] at hindex
  rw [Config.progBound] at hshort
  omega

end

/-- Settles O37: a fault of UpdatePC is not that of `pc + 4`, so the branch was taken. -/
theorem onlyBranchesRaiseInvalidPC : Obligations.OnlyBranchesRaiseInvalidPC := by
  intro s t hs hstep
  obtain ⟨-, i, hi, hfault⟩ := step_fault.1 hstep
  have hworks := worksOn_selected hs.engine hi
  refine ⟨i, hi, ?_⟩
  cases htaken : shouldBranch i { s with instructionIndex := s.fetchIndex } with
  | true => exact kind_of_shouldBranch htaken
  | false =>
    have hnext := exec_fallThrough (exec_invalidPCError_microStep hfault) htaken hworks.engine.pc_aligned
      (hworks.pc_add_four_lt hs.prog_short)
    rw [hfault] at hnext
    cases hnext

end Sys2Proof.Machine
end

