-- ==== Sys2Proof/Proofs/LoadStore.lean ====
section
/-! PROOF. LDUR and STUR: three phases latch the effective address, the fourth accesses memory there or
faults, and an admitted access completes at `pc + 4` (42_load_store.md R110 to R112). -/

namespace Sys2Proof.Machine

open Sys2Proof.Laws

/-! ## The access at the latched address -/

/-- The refusal the claims speak of is that of a doubleword access (R36, R37). -/
theorem badDoubleword_iff_accessFaults {c : Bool} {a : Word} :
    badDoubleword c a ↔ accessFaults c a .doubleword = true := by
  simp [accessFaults_iff, badDoubleword, AccessWidth.bytes]

theorem accessFaults_eq_false_of_not_badDoubleword {c : Bool} {a : Word} (h : ¬ badDoubleword c a) :
    accessFaults c a .doubleword = false :=
  Bool.eq_false_iff.2 (mt badDoubleword_iff_accessFaults.2 h)

section
variable {s : State} (hs : s.atBoundary = true) (rt rn : Reg) (imm : Int)
include hs

/-- Three phases of LDUR latch the effective address (R110). -/
theorem execChain_ldur_addressed :
    ExecChain (.ldur rt rn imm) 3 s (s.addressed (.ldur rt rn imm) (effectiveAddress s rn imm)) :=
  execChain_decoded hs ⟨_, rfl, rfl⟩

/-- Three phases of STUR latch the effective address (R111). -/
theorem execChain_stur_addressed :
    ExecChain (.stur rt rn imm) 3 s (s.addressed (.stur rt rn imm) (effectiveAddress s rn imm)) :=
  execChain_decoded hs ⟨_, rfl, rfl⟩

end

section
variable (s : State) (rt rn : Reg) (imm : Int) (a : Word)

/-- With the address latched, LDUR goes on to read there (R110, R139). -/
theorem exec_ldur_addressed : exec (.ldur rt rn imm) (s.addressed (.ldur rt rn imm) a) =
    loadPhase (s.addressed (.ldur rt rn imm) a) :=
  exec_eq_performPhase _ _

/-- With the address latched, STUR goes on to write `x[rt]` there (R111, R139). -/
theorem exec_stur_addressed : exec (.stur rt rn imm) (s.addressed (.stur rt rn imm) a) =
    storePhase rt (s.addressed (.stur rt rn imm) a) :=
  exec_eq_performPhase _ _

end

/-! ## Completion -/

/-- An instruction that does not branch, after five phases under the control signals of its kind,
completes at `pc + 4` with nothing else changed (R112, R141). -/
theorem ExecChain.fallThrough {i : Instr} {s t : State} (h : ExecChain i 5 s t)
    (hm : t.microStep = .phase .writeBack) (hctrl : t.ctrl = controlSignals i.kind)
    (hstay : shouldBranch i t = false) (haligned : t.pc.toNat % 4 = 0) (hlt : t.pc.toNat + 4 < 2 ^ 64) :
    ExecChain i 6 s { t with pc := t.pc + 4#64, microStep := .phase .updatePC } := by
  have hlast := exec_fallThrough hm hstay haligned hlt
  rw [hctrl, controlSignals_withPCSrc_false, ← hctrl] at hlast
  exact execChain_succ.2 ⟨t, h, hlast⟩

/-- Settles O29: the Memory phase latches the doubleword at the latched address, WriteBack writes it. -/
theorem ldurCompletes : Obligations.LdurCompletes := by
  intro rt rn imm s hs haligned hlt hadmitted
  have hread := memRead_ok (m := s.mem).2 ⟨accessFaults_eq_false_of_not_badDoubleword hadmitted, rfl⟩
  have hload := (exec_ldur_addressed s rt rn imm _).trans (loadPhase_next.2 ⟨_, _, rfl, hread, rfl⟩)
  have hloaded := execChain_succ.2 ⟨_, execChain_ldur_addressed hs rt rn imm, hload⟩
  exact (execChain_succ.2 ⟨_, hloaded, rfl⟩).fallThrough rfl rfl rfl haligned hlt

/-- Settles O30: the Memory phase writes `x[rt]` at the latched address, WriteBack does nothing. -/
theorem sturCompletes : Obligations.SturCompletes := by
  intro rt rn imm s hs haligned hlt hadmitted
  have hwrite := memWrite_ok (m := s.mem) (v := s.readReg rt).2
    ⟨accessFaults_eq_false_of_not_badDoubleword hadmitted, rfl⟩
  have hstore := (exec_stur_addressed s rt rn imm _).trans (storePhase_next.2 ⟨_, _, rfl, hwrite, rfl⟩)
  have hstored := execChain_succ.2 ⟨_, execChain_stur_addressed hs rt rn imm, hstore⟩
  exact (execChain_succ.2 ⟨_, hstored, rfl⟩).fallThrough rfl rfl rfl haligned hlt

/-! ## Faults -/

/-- Settles O34: the three phases before the access latch its address, and the Memory phase faults with
it. -/
theorem loadAndStoreFaults : Obligations.LoadAndStoreFaults := by
  intro rt rn imm s hs hbad
  have hrefused := badDoubleword_iff_accessFaults.1 hbad
  constructor
  · exact ⟨_, execChain_ldur_addressed hs rt rn imm, rfl,
      (exec_ldur_addressed s rt rn imm _).trans (loadPhase_fault.2 ⟨_, rfl, memRead_error.2 ⟨rfl, hrefused⟩⟩)⟩
  · exact ⟨_, execChain_stur_addressed hs rt rn imm, rfl,
      (exec_stur_addressed s rt rn imm _).trans (storePhase_fault.2 ⟨_, rfl, memWrite_error.2 ⟨rfl, hrefused⟩⟩)⟩

/-! ## The bytes stored -/

/-- Where six phases of STUR go through, the access was admitted, and the memory they leave is that of
writing `x[rt]` at the effective address (R111). -/
theorem memWrite_of_execChain_stur {rt rn : Reg} {imm : Int} {s t : State} (hs : s.atBoundary = true)
    (h : ExecChain (.stur rt rn imm) 6 s t) :
    memWrite s.params.alignCheck s.mem (effectiveAddress s rn imm) .doubleword (s.readReg rt) = .ok t.mem := by
  obtain ⟨u₅, h₅, hupdate⟩ := execChain_succ.1 h
  obtain ⟨u₄, h₄, hwriteBack⟩ := execChain_succ.1 h₅
  have hstore := (execChain_stur_addressed hs rt rn imm).exec_last h₄
  rw [exec_stur_addressed] at hstore
  obtain ⟨a, m, ha, hwrite, rfl⟩ := storePhase_next.1 hstore
  obtain rfl := Option.some.inj ha
  obtain rfl := Host.Outcome.next.inj hwriteBack
  rw [exec_next_mem hupdate (.inr nofun)]
  exact hwrite

/-- Settles O40: six phases of STUR write memory once, and that write is little-endian and bounded. -/
theorem storeInstructionFrame : Obligations.StoreInstructionFrame := by
  intro rt rn imm s t hs hwf h
  obtain ⟨hbytes, houtside, -⟩ :=
    storedBytesLittleEndian _ _ _ _ _ .doubleword hwf (memWrite_of_execChain_stur hs h)
  exact ⟨hbytes, houtside⟩

end Sys2Proof.Machine
end

