-- ==== Sys2Proof/Proofs/Branch.lean ====
section
/-! PROOF. B, CBZ and CBNZ: five phases that leave `pc`, those of CBZ and CBNZ with the flags of the
comparison; the sixth goes on to the target, or faults where `pc` cannot hold it (43_branch.md R120 to
R124; 60_exceptions.md R185). -/

namespace Sys2Proof.Machine

open Sys2Proof.Laws

/-! ## The UpdatePC phase -/

/-- The targets the claims speak of as bad are those the phase refuses (R124). -/
theorem validTarget_eq_false_iff_badTarget {t : Int} : validTarget t = false ↔ badTarget t := by
  rw [← Bool.not_eq_true, validTarget_iff, badTarget]
  omega

section
variable {i : Instr} {s : State} (hm : s.microStep = .phase .writeBack)
include hm

/-- After WriteBack the phase is UpdatePC, with the branch decision and offset of the kind (R141). -/
theorem exec_eq_updatePCPhase : exec i s = updatePCPhase (shouldBranch i s) (branchOffset i) s := by
  rw [exec_eq_performPhase, hm]
  rfl

/-- UpdatePC faults with a target `pc` cannot hold (R124, R141). -/
theorem exec_updatePC_fault (hbad : badTarget (nextPC i s)) :
    exec i s = .fault (.invalidPCError (nextPC i s)) := by
  rw [exec_eq_updatePCPhase hm]
  exact updatePCPhase_fault.2 ⟨validTarget_eq_false_iff_badTarget.2 hbad, rfl⟩

/-- UpdatePC goes on to a target `pc` can hold, which is stored without wrapping (R124, R141). -/
theorem exec_updatePC_next (hgood : ¬ badTarget (nextPC i s)) :
    ∃ t, exec i s = .next t ∧ (t.pc.toNat : Int) = nextPC i s ∧
      t = { s with
            pc := t.pc, ctrl := { s.ctrl with pcSrc := shouldBranch i s }, microStep := .phase .updatePC } := by
  have hvalid : validTarget (nextPC i s) = true :=
    Bool.eq_true_of_not_eq_false (mt validTarget_eq_false_iff_badTarget.1 hgood)
  rw [exec_eq_updatePCPhase hm]
  exact ⟨_, updatePCPhase_next.2 ⟨hvalid, rfl⟩, toNat_ofInt_valid hvalid, rfl⟩

end

/-- An instruction that stands before UpdatePC after five phases completes at a target `pc` can hold. -/
theorem ExecChain.updatePC {i : Instr} {s t : State} (h : ExecChain i 5 s t)
    (hm : t.microStep = .phase .writeBack) (hgood : ¬ badTarget (nextPC i t)) :
    ∃ u, ExecChain i 6 s u ∧ (u.pc.toNat : Int) = nextPC i t ∧
      u = { t with
            pc := u.pc, ctrl := { t.ctrl with pcSrc := shouldBranch i t }, microStep := .phase .updatePC } := by
  obtain ⟨u, hlast, hu⟩ := exec_updatePC_next hm hgood
  exact ⟨u, execChain_succ.2 ⟨t, h, hlast⟩, hu⟩

/-! ## The targets -/

/-- CBZ branches by four times its count where the register is 0 (R120, R122). -/
theorem nextPC_cbz (rt : Reg) (count : Int) (s : State) : nextPC (.cbz rt count) s =
    s.pc.toNat + 4 + (if s.readReg rt = 0#64 then 4 * count else 0) := by
  simp [nextPC, shouldBranch, branchOffset]

/-- CBNZ branches by four times its count where the register is not 0 (R120, R123). -/
theorem nextPC_cbnz (rt : Reg) (count : Int) (s : State) : nextPC (.cbnz rt count) s =
    s.pc.toNat + 4 + (if s.readReg rt ≠ 0#64 then 4 * count else 0) := by
  simp [nextPC, shouldBranch, branchOffset]

/-! ## The five phases before UpdatePC -/

/-- The comparison of a register that holds `v` latches `v` and writes its flags; `pc` is not among what
changes (R122, R123). -/
theorem compared_eq {s : State} {rt : Reg} {v : Word} (i : Instr) (hv : s.readReg rt = v) :
    s.compared i rt = { s with
      flags := comparisonFlags v
      ctrl := controlSignals i.kind
      aluResult := some v
      microStep := .phase .writeBack } := by
  rw [State.compared, hv, compute_sub_zero]

/-- The flags of a register that is not 0 (R122). -/
theorem comparisonFlags_of_ne_zero {v : Word} (h : v ≠ 0#64) :
    comparisonFlags v = { n := v.getLsbD 63, z := false, c := true, v := false } := by
  rw [comparisonFlags, beq_false_of_ne h]

section
variable {s : State} (hs : s.atBoundary = true)
include hs

/-- Five phases of B latch its control signals only (R121). -/
theorem execChain_b_undecided (offset : Int) :
    ExecChain (.b offset) 5 s { s with ctrl := controlSignals .b, microStep := .phase .writeBack } :=
  execChain_decoded hs ⟨_, rfl, _, rfl, _, rfl, rfl⟩

/-- Five phases of CBZ compare the register with 0 (R122). -/
theorem execChain_cbz_compared (rt : Reg) (count : Int) :
    ExecChain (.cbz rt count) 5 s (s.compared (.cbz rt count) rt) :=
  execChain_decoded hs ⟨_, rfl, _, rfl, _, rfl, rfl⟩

/-- Five phases of CBNZ compare the register with 0 (R123). -/
theorem execChain_cbnz_compared (rt : Reg) (count : Int) :
    ExecChain (.cbnz rt count) 5 s (s.compared (.cbnz rt count) rt) :=
  execChain_decoded hs ⟨_, rfl, _, rfl, _, rfl, rfl⟩

end

/-! ## Completion -/

/-- Settles O31: five phases that do nothing, and the branch is always taken. -/
theorem branchCompletes : Obligations.BranchCompletes := by
  intro offset s hs hgood
  exact (execChain_b_undecided hs offset).updatePC rfl hgood

/-- Settles O32: the comparison writes the flags in both cases, and UpdatePC decides on the same value. -/
theorem cbzCompletes : Obligations.CbzCompletes := by
  intro rt count s hs hgood
  have hcompared := execChain_cbz_compared hs rt count
  rw [compared_eq _ rfl] at hcompared
  rw [← nextPC_cbz] at hgood ⊢
  exact hcompared.updatePC rfl hgood

/-- Settles O33: as CBZ, with the decision reversed. -/
theorem cbnzCompletes : Obligations.CbnzCompletes := by
  intro rt count s hs hgood
  have hcompared := execChain_cbnz_compared hs rt count
  rw [compared_eq _ rfl] at hcompared
  rw [← nextPC_cbnz] at hgood ⊢
  exact hcompared.updatePC rfl hgood

/-! ## Faults -/

section
variable {rt : Reg} {s : State} (count : Int)

/-- After the comparison CBZ of a register that holds 0 goes to its target (R122). -/
theorem nextPC_cbz_compared (h : s.readReg rt = 0#64) :
    nextPC (.cbz rt count) (s.compared (.cbz rt count) rt) = s.pc.toNat + 4 + 4 * count :=
  (nextPC_cbz rt count _).trans (congrArg (_ + ·) (if_pos h))

/-- After the comparison CBNZ of a register that does not hold 0 goes to its target (R123). -/
theorem nextPC_cbnz_compared (h : s.readReg rt ≠ 0#64) :
    nextPC (.cbnz rt count) (s.compared (.cbnz rt count) rt) = s.pc.toNat + 4 + 4 * count :=
  (nextPC_cbnz rt count _).trans (congrArg (_ + ·) (if_pos h))

end

/-- Settles O35: the five phases are those of a branch that completes, and UpdatePC faults with the target. -/
theorem branchTargetFaults : Obligations.BranchTargetFaults := by
  refine ⟨fun offset s hs hbad => ?_, fun rt count s hs hzero hbad => ?_, fun rt count s hs hne hbad => ?_⟩
  · exact ⟨_, execChain_b_undecided hs offset, rfl, exec_updatePC_fault rfl hbad⟩
  · rw [← nextPC_cbz_compared count hzero] at hbad ⊢
    exact ⟨_, execChain_cbz_compared hs rt count, compared_eq _ hzero, exec_updatePC_fault rfl hbad⟩
  · rw [← nextPC_cbnz_compared count hne] at hbad ⊢
    rw [← comparisonFlags_of_ne_zero hne]
    exact ⟨_, execChain_cbnz_compared hs rt count, compared_eq _ rfl, exec_updatePC_fault rfl hbad⟩

end Sys2Proof.Machine
end

