-- ==== Sys2Proof/Proofs/PhasesOfEveryKind.lean ====
section
/-! PROOF. The six phases of every instruction, each with its whole next state or its fault
(44_sequencer.md R135 to R141). -/

namespace Sys2Proof.Machine

open Sys2Proof.Laws

/-- `exec` performs the phase that is next (R132). -/
theorem exec_eq_performPhase_of_next {s : State} {p : Phase} (i : Instr) (h : s.microStep.next = p) :
    exec i s = performPhase i p s := by
  rw [exec_eq_performPhase, h]

/-! ## Fetch and Decode -/

/-- Settles O18: the control table is read off row by row. -/
theorem fetchAndDecodePhases : Obligations.FetchAndDecodePhases := by
  refine ⟨fun i s hs => ?_, fun i s hm => ?_, fun k => ?_⟩
  · exact exec_eq_performPhase_of_next i (MicroStep.next_of_boundary hs)
  · exact exec_eq_performPhase_of_next i (congrArg MicroStep.next hm)
  · cases k <;> rfl

/-! ## Execute -/

/-- The Execute phase of an instruction that uses the ALU latches its output, and commits the flags where
the kind or FlagWrite asks for it (R138). -/
theorem exec_eq_executed {i : Instr} {s : State} {o : AluOutput} (hm : s.microStep = .phase .decode)
    (ho : aluOutput i s = some o) : exec i s = .next (s.executed o (isComparison i.kind || s.ctrl.flagWrite)) := by
  refine (exec_eq_performPhase_of_next i (congrArg MicroStep.next hm)).trans ?_
  cases i with
  | b => cases ho
  | _ =>
    cases ho
    rfl

/-- Settles O19: each kind but B latches its ALU output, and of those only the two comparisons commit the
flags whatever FlagWrite is. -/
theorem executePhaseOfEveryKind : Obligations.ExecutePhaseOfEveryKind := by
  intro i s hm
  cases i with
  | b => exact exec_eq_performPhase_of_next _ (congrArg MicroStep.next hm)
  | _ => exact exec_eq_executed hm rfl

/-! ## Memory -/

/-- Settles O20: LDUR and STUR access the latched address, under the one condition of both. -/
theorem memoryPhaseOfEveryKind : Obligations.MemoryPhaseOfEveryKind := by
  have hexec {s : State} (hm : s.microStep = .phase .execute) (i : Instr) : exec i s = memoryPhaseOf i s :=
    exec_eq_performPhase_of_next i (congrArg MicroStep.next hm)
  refine ⟨fun rt rn imm s a hm ha => ⟨fun hgood => ?_, fun hbad => ?_⟩, fun i s hm hldur hstur => ?_⟩
  · have hadmitted := accessFaults_eq_false_of_not_badDoubleword hgood
    rw [hexec hm, hexec hm]
    exact ⟨loadPhase_next.2 ⟨a, _, ha, memRead_ok.2 ⟨hadmitted, rfl⟩, rfl⟩,
      storePhase_next.2 ⟨a, _, ha, memWrite_ok.2 ⟨hadmitted, rfl⟩, rfl⟩⟩
  · have hrefused := badDoubleword_iff_accessFaults.1 hbad
    rw [hexec hm, hexec hm]
    exact ⟨loadPhase_fault.2 ⟨a, ha, memRead_error.2 ⟨rfl, hrefused⟩⟩,
      storePhase_fault.2 ⟨a, ha, memWrite_error.2 ⟨rfl, hrefused⟩⟩⟩
  · rw [hexec hm]
    cases i with
    | ldur => exact absurd rfl hldur
    | stur => exact absurd rfl hstur
    | _ => rfl

/-! ## WriteBack -/

/-- Settles O21: the kinds with a destination write the latch of theirs back, the others do nothing. -/
theorem writeBackPhaseOfEveryKind : Obligations.WriteBackPhaseOfEveryKind := by
  intro i s hm
  have hexec : exec i s = writeBackPhaseOf i s :=
    exec_eq_performPhase_of_next i (congrArg MicroStep.next hm)
  cases i with
  | stur | b | cbz | cbnz => exact hexec
  | _ => exact fun v hv => hexec.trans (writeBackPhase_next.2 ⟨v, hv, rfl⟩)

/-! ## UpdatePC -/

/-- Settles O22: `pc` takes the target or the phase faults with it. -/
theorem updatePCPhaseOfEveryKind : Obligations.UpdatePCPhaseOfEveryKind :=
  fun _ _ hm => ⟨exec_updatePC_fault hm, exec_updatePC_next hm⟩

end Sys2Proof.Machine
end

