-- ==== Sys2Proof/Proofs/StepCycle.lean ====
section
/-! PROOF. What a call of `step` performs, that it stands still only at completion, and the cycle of six
steps with the index they work at (44_sequencer.md R132, R133, R142 to R146). -/

namespace Sys2Proof.Machine

open Sys2Proof.Laws

/-! ## One step -/

/-- The run is complete at a boundary whose `pc / 4` is past the program (R146). -/
theorem completed_iff {s : State} :
    s.completed = true ↔ s.atBoundary = true ∧ s.prog.length ≤ s.pc.toNat / 4 := by
  simp [State.completed]

/-- The instruction at work is the one the selected word decodes to (R133). -/
theorem current_of_decode {s : State} {e : ProgEntry} {i : Instr} (he : s.prog[s.fetchIndex]? = some e)
    (hd : decode e.word = .ok i) : s.current = some i := by
  simp [State.current, instrAt, he, hd]

/-- A step is one phase of the instruction at work, recorded where it goes on (R142, R145). -/
theorem step_eq_recordNext {s : State} {i : Instr} (hc : s.completed = false) (hi : s.current = some i) :
    step s = recordNext (exec i { s with instructionIndex := s.fetchIndex }) := by
  rw [step, select_perform.2 ⟨hc, hi, rfl⟩]

/-- Settles O43: the instruction at work is the one the selected word decodes to. -/
theorem stepRunsDecodedInstruction : Obligations.StepRunsDecodedInstruction := by
  intro s e i hc he hd
  exact step_eq_recordNext hc (current_of_decode he hd)

section
variable {s t : State} (hc : s.completed = false) (h : step s = .next t)
include hc h

/-- A performed step performs the next phase (R132). -/
theorem step_next_microStep : t.microStep = .phase s.microStep.next := by
  obtain ⟨hdone, -⟩ | ⟨-, i, u, -, hu, rfl⟩ := step_next.1 h
  · simp [hc] at hdone
  · rw [record_microStep, exec_next_microStep hu]

/-- A performed step leaves the selected index in `instructionIndex` (R133). -/
theorem step_next_instructionIndex : t.instructionIndex = s.fetchIndex := by
  obtain ⟨hdone, -⟩ | ⟨-, i, u, -, hu, rfl⟩ := step_next.1 h
  · simp [hc] at hdone
  · rw [record_instructionIndex, exec_next_instructionIndex hu]

end

/-! ## Completion -/

/-- No phase is its own successor (R132). -/
theorem MicroStep.phase_next_ne (m : MicroStep) : .phase m.next ≠ m := by
  rcases m with _ | _ | _ | _ | _ | _ | _ <;> nofun

/-- Settles O44: a performed step changes `microStep`. -/
theorem completionIsTheOnlyStandstill : Obligations.CompletionIsTheOnlyStandstill := by
  intro s
  rw [← completed_iff]
  refine ⟨fun h => ?_, fun hc => step_next.2 (.inl ⟨hc, rfl⟩)⟩
  by_contra hrunning
  have hmoved := step_next_microStep (Bool.eq_false_iff.2 hrunning) h
  exact MicroStep.phase_next_ne _ hmoved.symm

/-! ## The cycle -/

/-- A chain one step longer is a chain and one performed step more at its end. -/
theorem stepChain_succ {n : Nat} {s t : State} :
    StepChain (n + 1) s t ↔ ∃ u, StepChain n s u ∧ u.completed = false ∧ step u = .next t := by
  refine ⟨fun h => ?_, fun ⟨u, hu, hc, ht⟩ => hu.snoc hc ht⟩
  induction n generalizing s with
  | zero =>
    obtain ⟨hc, u, hu, rfl⟩ := h
    exact ⟨s, rfl, hc, hu⟩
  | succ n ih =>
    obtain ⟨hs, v, hv, hchain⟩ := h
    obtain ⟨u, hu, hlast⟩ := ih hchain
    exact ⟨u, ⟨hs, v, hv, hu⟩, hlast⟩

theorem fetchIndex_of_boundary {s : State} (h : s.atBoundary = true) : s.fetchIndex = s.pc.toNat / 4 :=
  if_pos h

theorem fetchIndex_inside {s : State} (h : s.atBoundary = false) : s.fetchIndex = s.instructionIndex := by
  simp [State.fetchIndex, h]

/-- After `n + 1` performed steps from a boundary, up to six, the phase last performed is number `n`, and
the index is still that of the start (R133, R143). -/
theorem stepChain_cycle {n : Nat} {s t : State} (hs : s.atBoundary = true) (hn : n < 6)
    (h : StepChain (n + 1) s t) : t.microStep.number = n ∧ t.instructionIndex = s.pc.toNat / 4 := by
  induction n generalizing t with
  | zero =>
    obtain ⟨hc, u, hu, rfl⟩ := h
    rw [step_next_microStep hc hu, MicroStep.next_of_boundary hs, step_next_instructionIndex hc hu,
      fetchIndex_of_boundary hs]
    exact ⟨rfl, rfl⟩
  | succ n ih =>
    obtain ⟨u, hu, hc, ht⟩ := stepChain_succ.1 h
    obtain ⟨hnumber, hindex⟩ := ih (by omega) hu
    have hinside : u.atBoundary = false := MicroStep.boundary_eq_false_iff.2 (by omega)
    rw [step_next_microStep hc ht, MicroStep.number_next hinside, hnumber, step_next_instructionIndex hc ht,
      fetchIndex_inside hinside]
    exact ⟨rfl, hindex⟩

/-- Six performed steps from a boundary end at a boundary (R143). -/
theorem atBoundary_of_six_steps {s t : State} (hs : s.atBoundary = true) (h : StepChain 6 s t) :
    t.atBoundary = true := by
  obtain ⟨hnumber, -⟩ := stepChain_cycle hs (by omega) h
  by_contra hinside
  have := MicroStep.boundary_eq_false_iff.1 (Bool.eq_false_iff.2 hinside)
  omega

/-- Settles O45: the seventh step is the first of the next cycle. -/
theorem stepCycle : Obligations.StepCycle := by
  intro s hs _
  refine ⟨fun n t hn h => stepChain_cycle hs hn h, fun u t hu hc ht => ?_⟩
  exact stepChain_cycle (n := 0) (atBoundary_of_six_steps hs hu) (by omega) ⟨hc, t, ht, rfl⟩

end Sys2Proof.Machine
end

