-- ==== Sys2Proof/Proofs/ContinuousRun.lean ====
section
/-! PROOF. A continuous run is a chain of single steps that stops for the reason it reports
(44_sequencer.md R148, R150, R152; 45_history_debug.md R168). -/

namespace Sys2Proof.Machine

open Sys2Proof.Laws

/-- What the command `step()` answers is what `step` does; only a performed step changes the state (R134). -/
theorem stepCommand_eq {s t : State} {r : StepResult} (h : stepCommand s = (r, t)) :
    match r with
    | .stepped _ => s.completed = false ∧ step s = .next t
    | .completed => s.completed = true ∧ t = s
    | .fault f => step s = .fault f ∧ t = s
    | .refused x => step s = .refused x ∧ t = s := by
  unfold stepCommand at h
  split at h
  case isTrue hc =>
    cases h
    exact ⟨hc, rfl⟩
  case isFalse hc =>
    split at h <;> rename_i hstep <;> cases h
    · exact ⟨Bool.eq_false_iff.2 hc, hstep⟩
    · exact ⟨hstep, rfl⟩
    · exact ⟨hstep, rfl⟩

/-! ## The breakpoint check -/

/-- The loop checks for a breakpoint before its `n`-th step: in every iteration but the first of a run
(R148, D16). -/
def Checked (first : Bool) (n : Nat) : Prop := first = true → 0 < n

theorem checked_true {n : Nat} : Checked true n ↔ 0 < n := by simp [Checked]

theorem checked_false (n : Nat) : Checked false n := nofun

theorem checked_succ (first : Bool) (n : Nat) : Checked first (n + 1) := fun _ => n.succ_pos

/-- Where the loop goes on and the check is made, no breakpoint is ahead. -/
theorem not_atBreakpoint_of_check {first : Bool} {s : State}
    (h : (if first then none else s.breakpointAhead) = none) (hfirst : Checked first 0) : ¬ s.AtBreakpoint := by
  cases first with
  | true => exact absurd (hfirst rfl) (Nat.lt_irrefl 0)
  | false => exact breakpointAhead_none.1 h

/-! ## What a run shows -/

/-- What holds of the state `t` in which the loop ends after `n` performed steps, for each reason it
reports. -/
def EndsFor (first : Bool) (ticks : List Bool) (n : Nat) (t : State) : RunResult → Prop
  | .completed => ticks[n]? = some true ∧ t.completed = true
  | .fault f => ticks[n]? = some true ∧ step t = .fault f ∧ (Checked first n → ¬ t.AtBreakpoint)
  | .breakpoint line => ticks[n]? = some true ∧ Checked first n ∧ t.AtBreakpoint ∧
      ∃ e, t.prog[t.pc.toNat / 4]? = some e ∧ e.line = line
  | .cancelled => ticks[n]? = some false
  | .refused x => ticks[n]? = some true ∧ step t = .refused x ∧ (Checked first n → ¬ t.AtBreakpoint)
  | .outOfTicks => n = ticks.length

/-- The loop from `s` performs `n` steps, at readings that are true and past no breakpoint it checks for,
and ends in `t` for the reason `r`. -/
structure RunShows (first : Bool) (ticks : List Bool) (s : State) (n : Nat) (t : State) (r : RunResult) :
    Prop where
  steps : StepChain n s t
  readings : ∀ k, k < n → ticks[k]? = some true
  passes : ∀ m u, Checked first m → m < n → StepChain m s u → ¬ u.AtBreakpoint
  ending : EndsFor first ticks n t r

/-- The loop ends where it stands. -/
theorem RunShows.stop {first : Bool} {ticks : List Bool} {s : State} {r : RunResult}
    (h : EndsFor first ticks 0 s r) : RunShows first ticks s 0 s r where
  steps := rfl
  readings _ hk := absurd hk (Nat.not_lt_zero _)
  passes _ _ _ hm := absurd hm (Nat.not_lt_zero _)
  ending := h

/-- One more true reading and step in front do not change why the loop ends. -/
theorem EndsFor.cons {first : Bool} {ticks : List Bool} {n : Nat} {t : State} {r : RunResult}
    (h : EndsFor false ticks n t r) : EndsFor first (true :: ticks) (n + 1) t r := by
  cases r with
  | completed | cancelled => exact h
  | fault | refused =>
    obtain ⟨hreading, hstep, hahead⟩ := h
    exact ⟨hreading, hstep, fun _ => hahead (checked_false n)⟩
  | breakpoint =>
    obtain ⟨hreading, -, hahead⟩ := h
    exact ⟨hreading, checked_succ first n, hahead⟩
  | outOfTicks => exact congrArg Nat.succ h

/-- The loop performs a step and goes on. -/
theorem RunShows.cons {first : Bool} {ticks : List Bool} {s u t : State} {n : Nat} {r : RunResult}
    (hc : s.completed = false) (hstep : step s = .next u) (hahead : Checked first 0 → ¬ s.AtBreakpoint)
    (h : RunShows false ticks u n t r) : RunShows first (true :: ticks) s (n + 1) t r where
  steps := ⟨hc, u, hstep, h.steps⟩
  readings k hk := by
    cases k with
    | zero => rfl
    | succ k => exact h.readings k (Nat.lt_of_succ_lt_succ hk)
  passes m v hm hmn hv := by
    cases m with
    | zero =>
      obtain rfl : s = v := hv
      exact hahead hm
    | succ m =>
      obtain ⟨-, w, hw, hv⟩ := hv
      obtain rfl := Host.Outcome.next.inj (hstep.symm.trans hw)
      exact h.passes m v (checked_false m) (Nat.lt_of_succ_lt_succ hmn) hv
  ending := h.ending.cons

/-- Every run of the loop is such a chain of steps. -/
theorem runLoop_shows {first : Bool} {ticks : List Bool} {s t : State} {r : RunResult}
    (h : runLoop first ticks s = (r, t)) : ∃ n, RunShows first ticks s n t r := by
  induction ticks generalizing first s with
  | nil =>
    cases h
    exact ⟨0, .stop rfl⟩
  | cons reading ticks ih =>
    cases reading with
    | false =>
      cases h
      exact ⟨0, .stop rfl⟩
    | true =>
      rw [runLoop] at h
      split at h
      · rename_i line hcheck
        cases h
        cases first with
        | true => cases hcheck
        | false => exact ⟨0, .stop ⟨rfl, checked_false 0, breakpointAhead_some hcheck⟩⟩
      · rename_i hcheck
        have hahead := not_atBreakpoint_of_check hcheck
        split at h <;> rename_i hcommand
        · cases h
          obtain ⟨hc, rfl⟩ := stepCommand_eq hcommand
          exact ⟨0, .stop ⟨rfl, hc⟩⟩
        · cases h
          obtain ⟨hfault, rfl⟩ := stepCommand_eq hcommand
          exact ⟨0, .stop ⟨rfl, hfault, hahead⟩⟩
        · cases h
          obtain ⟨hrefused, rfl⟩ := stepCommand_eq hcommand
          exact ⟨0, .stop ⟨rfl, hrefused, hahead⟩⟩
        · obtain ⟨hc, hstep⟩ := stepCommand_eq hcommand
          obtain ⟨n, hn⟩ := ih h
          exact ⟨n + 1, hn.cons hc hstep hahead⟩

/-- Settles O59: a run begins with the one iteration that is exempt from the check. -/
theorem runIsSingleSteps : Obligations.RunIsSingleSteps := by
  intro speed ticks s t r h
  obtain ⟨n, hsteps, hreadings, hpasses, hending⟩ := runLoop_shows h
  refine ⟨n, hsteps, hreadings, fun m u hm => hpasses m u (checked_true.2 hm), ?_⟩
  cases r with
  | completed | cancelled | outOfTicks => exact hending
  | fault | refused | breakpoint => simpa only [EndsFor, checked_true] using hending

end Sys2Proof.Machine
end

