-- ==== Sys2Proof/Proofs/Breakpoints.lean ====
section
/-! PROOF. The breakpoint list as a set: toggling a line, and that the list stays strictly rising
(45_history_debug.md R168, R169). -/

namespace Sys2Proof.Machine

/-! ## Toggling a line of a strictly rising list -/

theorem toggleLine_of_lt {line x : Nat} {xs : List Nat} (h : line < x) :
    toggleLine line (x :: xs) = line :: x :: xs := if_pos h

theorem toggleLine_self (line : Nat) (xs : List Nat) : toggleLine line (line :: xs) = xs := by
  simp [toggleLine]

theorem toggleLine_of_gt {line x : Nat} {xs : List Nat} (h : x < line) :
    toggleLine line (x :: xs) = x :: toggleLine line xs := by
  simp [toggleLine, Nat.lt_asymm h, Nat.ne_of_gt h]

/-- A line below the head of a strictly rising list is not in it. -/
theorem not_mem_of_lt_head {line x : Nat} {xs : List Nat} (h : line < x) (hxs : ∀ y ∈ xs, x < y) :
    line ∉ x :: xs := by
  rintro (_ | ⟨_, hmem⟩)
  · exact Nat.lt_irrefl _ h
  · exact Nat.lt_asymm h (hxs line hmem)

/-- Toggling changes the membership of the line toggled and of no other (R168). -/
theorem mem_toggleLine {line l : Nat} {ls : List Nat} (h : ls.Pairwise (· < ·)) :
    l ∈ toggleLine line ls ↔ if l = line then l ∉ ls else l ∈ ls := by
  induction ls with
  | nil => simp [toggleLine]
  | cons x xs ih =>
    obtain ⟨hx, hxs⟩ := List.pairwise_cons.1 h
    obtain hlt | rfl | hgt := Nat.lt_trichotomy line x
    · rw [toggleLine_of_lt hlt, List.mem_cons]
      split
      case isTrue heq => exact iff_of_true (.inl heq) (heq ▸ not_mem_of_lt_head hlt hx)
      case isFalse hne => exact or_iff_right hne
    · rw [toggleLine_self, List.mem_cons]
      split
      case isTrue heq => exact iff_of_false (fun hmem => Nat.ne_of_gt (hx l hmem) heq) (not_not_intro (.inl heq))
      case isFalse hne => exact (or_iff_right hne).symm
    · rw [toggleLine_of_gt hgt, List.mem_cons, List.mem_cons, ih hxs]
      split
      case isTrue heq => simp [heq, Nat.ne_of_gt hgt]
      case isFalse => rfl

/-- Toggling keeps the list strictly rising (R168). -/
theorem pairwise_toggleLine (line : Nat) {ls : List Nat} (h : ls.Pairwise (· < ·)) :
    (toggleLine line ls).Pairwise (· < ·) := by
  induction ls with
  | nil => exact List.pairwise_singleton _ _
  | cons x xs ih =>
    obtain ⟨hx, hxs⟩ := List.pairwise_cons.1 h
    obtain hlt | rfl | hgt := Nat.lt_trichotomy line x
    · rw [toggleLine_of_lt hlt]
      exact h.cons (List.forall_mem_cons.2 ⟨hlt, fun y hy => hlt.trans (hx y hy)⟩)
    · rwa [toggleLine_self]
    · rw [toggleLine_of_gt hgt]
      refine (ih hxs).cons fun y hy => ?_
      rw [mem_toggleLine hxs] at hy
      split at hy
      case isTrue heq => exact heq ▸ hgt
      case isFalse => exact hx y hy

/-- Toggling a line twice gives the list back: a strictly rising list is determined by its members. -/
theorem toggleLine_toggleLine (line : Nat) {ls : List Nat} (h : ls.Pairwise (· < ·)) :
    toggleLine line (toggleLine line ls) = ls := by
  have honce := pairwise_toggleLine line h
  refine (pairwise_toggleLine line honce).eq_of_mem_iff h fun l => ?_
  rw [mem_toggleLine honce, mem_toggleLine h]
  split <;> simp

/-! ## The command -/

/-- Line 0 is no line (R168). -/
theorem toggleBreakpoint_zero (s : State) : s.toggleBreakpoint 0 = s := rfl

theorem toggleBreakpoint_of_pos (s : State) {line : Nat} (h : 0 < line) :
    s.toggleBreakpoint line = { s with bp := toggleLine line s.bp } := if_neg (Nat.ne_of_gt h)

/-- Settles O60: on a strictly rising list toggling is a symmetric difference with the line. -/
theorem toggleBreakpointToggles : Obligations.ToggleBreakpointToggles := by
  intro s line hline hrising
  refine ⟨fun l => ?_, ?_, ?_⟩
  · rw [toggleBreakpoint_of_pos s hline]
    exact mem_toggleLine hrising
  · rw [toggleBreakpoint_of_pos s hline]
  · rw [toggleBreakpoint_of_pos _ hline, toggleBreakpoint_of_pos s hline]
    simp only [toggleLine_toggleLine line hrising]

end Sys2Proof.Machine
end

