-- ==== Sys2Proof/Proofs/HistoryRing.lean ====
section
/-! PROOF. What a performed phase records in the history ring (45_history_debug.md R163), and the snapshot
it leaves before the tail. -/

namespace Sys2Proof.Machine

open Sys2Proof.Laws

/-! ## A performed phase -/

/-- A performed step records what one phase left of the engine; of the rest of the state nothing else
changes (R142). -/
theorem step_performed_eq_record {s t : State} (hc : s.completed = false) (hstep : step s = .next t) :
    t = record (s.restore t.snapshot) := by
  obtain ⟨hdone, -⟩ | ⟨-, i, u, -, hu, rfl⟩ := step_next.1 hstep
  · simp [hc] at hdone
  · have hengine := exec_next_eq_restore hu
    exact congrArg record hengine

/-- The ring after a performed phase: the snapshot of the new state appended to the entries kept (R163). -/
theorem step_performed_hist {s t : State} (hc : s.completed = false) (hstep : step s = .next t) :
    t.hist = appendBounded s.params.histMax (keptHistory s.hist s.cur) t.snapshot :=
  congrArg State.hist (step_performed_eq_record hc hstep)

/-- The cursor after a performed phase is the tail of the new ring (R163). -/
theorem step_performed_cur {s t : State} (hc : s.completed = false) (hstep : step s = .next t) :
    t.cur = tailCursor t.hist := by
  rw [step_performed_eq_record hc hstep]
  rfl

/-! ## The ring after recording -/

/-- The two cases of appending, by the number of entries kept. -/
theorem appendBounded_eq (n : Nat) (h : List Snapshot) (e : Snapshot) :
    appendBounded n h e = if h.length + 1 > n then (h ++ [e]).tail else h ++ [e] := by
  rw [appendBounded, List.length_append, List.length_singleton, List.drop_one]

theorem tailCursor_of_getLast? {h : List Snapshot} {e : Snapshot} (he : h.getLast? = some e) :
    tailCursor h = some (h.length - 1) := by
  cases h with
  | nil => cases he
  | cons x xs => rfl

/-- Settles O53: a ring of at least 1 keeps the snapshot just appended, so it has a tail. -/
theorem stepRecordsSnapshot : Obligations.StepRecordsSnapshot := by
  rintro s t kept hc hstep rfl
  have hhist := step_performed_hist hc hstep
  refine ⟨hhist.trans (appendBounded_eq _ _ _), fun hmax => ?_⟩
  have hlast : t.hist.getLast? = some t.snapshot := by
    rw [hhist]
    exact getLast?_appendBounded hmax
  exact ⟨hlast, (step_performed_cur hc hstep).trans (tailCursor_of_getLast? hlast)⟩

/-- In a ring of at least two, appending to a ring that ends in `x` leaves two entries, `x` the last
but one. -/
theorem appendBounded_concat {n : Nat} (hn : 2 ≤ n) (h : List Snapshot) (x e : Snapshot) :
    ∃ older, appendBounded n (h ++ [x]) e = older ++ [x, e] := by
  rw [appendBounded_eq]
  split
  case isFalse => exact ⟨h, List.append_assoc ..⟩
  case isTrue hfull =>
    cases h with
    | nil => exact absurd hfull (Nat.not_lt.2 hn)
    | cons y ys => exact ⟨ys, by simp⟩

/-- The entries kept end at the cursor (R163). -/
theorem keptHistory_of_cur {hist : List Snapshot} {c : Nat} {x : Snapshot} (hx : hist[c]? = some x) :
    keptHistory hist (some c) = hist.take c ++ [x] := by
  rw [keptHistory, List.take_add_one, hx]
  rfl

end Sys2Proof.Machine
end

