-- ==== Sys2Proof/Proofs/UndoRedo.lean ====
section
/-! PROOF. What undo, redo and undoToInstructionStart answer, and that undo and redo take each other back
(45_history_debug.md R164 to R167). -/

namespace Sys2Proof.Machine

open Sys2Proof.Laws

/-! ## What each of them answers -/

/-- `undo` moves the cursor one entry back (R164). -/
theorem undo_some {s t : State} {e : Snapshot} : undo s = (some e, t) ↔
    ∃ c, s.cur = some (c + 1) ∧ s.hist[c]? = some e ∧ t = { s.restore e with cur := some c } := by
  unfold undo
  split
  case h_1 hcur => simp [hcur]
  case h_2 hcur => simp [hcur]
  case h_3 c hcur => simp [hcur, moveCursor_some]

/-- `redo` moves the cursor one entry on (R165). -/
theorem redo_some {s t : State} {e : Snapshot} : redo s = (some e, t) ↔
    ∃ c, s.cur = some c ∧ s.hist[c + 1]? = some e ∧ t = { s.restore e with cur := some (c + 1) } := by
  unfold redo
  split
  case h_1 hcur => simp [hcur]
  case h_2 c hcur => simp [hcur, moveCursor_some]

/-- `undo` answers none where there is no earlier entry (R164). -/
theorem undo_none {s : State} : undo s = (none, s) ↔
    s.cur = none ∨ s.cur = some 0 ∨ ∃ c, s.cur = some (c + 1) ∧ s.hist[c]? = none := by
  unfold undo
  split
  case h_1 hcur => simp [hcur]
  case h_2 hcur => simp [hcur]
  case h_3 c hcur => simp [hcur, moveCursor_none]

/-- `redo` answers none where there is no later entry (R165). -/
theorem redo_none {s : State} : redo s = (none, s) ↔
    s.cur = none ∨ ∃ c, s.cur = some c ∧ s.hist[c + 1]? = none := by
  unfold redo
  split
  case h_1 hcur => simp [hcur]
  case h_2 c hcur => simp [hcur, moveCursor_none]

/-! ## Undo after a step, redo after undo -/

/-- Settles O54: the entries kept end in the snapshot at the cursor, which is that of the state before the
step. -/
theorem undoTakesBackOneStep : Obligations.UndoTakesBackOneStep := by
  intro s t hs hne hmax hc hstep
  obtain ⟨c, hcur⟩ : ∃ c, s.cur = some c := Option.ne_none_iff_exists'.1 fun h => hne (hs.cursor_none h)
  obtain ⟨older, hring⟩ := appendBounded_concat hmax (s.hist.take c) s.snapshot t.snapshot
  have hhist : t.hist = older ++ [s.snapshot, t.snapshot] := by
    rw [step_performed_hist hc hstep, hcur, keptHistory_of_cur (hs.cursor_here c hcur), hring]
  have htcur : t.cur = some (older.length + 1) := by
    rw [step_performed_cur hc hstep, hhist]
    simp [tailCursor]
  have hundo : undo t = (some s.snapshot, { t.restore s.snapshot with cur := some older.length }) :=
    undo_some.2 ⟨older.length, htcur, by simp [hhist], rfl⟩
  rw [hundo]
  exact ⟨rfl, rfl, rfl⟩

/-- The cursor lies in the ring (R162). -/
theorem State.Inv.cursor_lt {s : State} (hs : s.Inv) {c : Nat} (hc : s.cur = some c) : c < s.hist.length :=
  (List.getElem?_eq_some_iff.1 (hs.cursor_here c hc)).1

/-- Where the snapshot at the cursor is the engine's state, moving the cursor away and back to it gives the
state back whole (R167). -/
theorem restore_cursor_back {s : State} {c : Nat} (hc : s.cur = some c) (e : Snapshot) (d : Nat) :
    s = { ({ s.restore e with cur := some d } : State).restore s.snapshot with cur := some c } := by
  rw [← hc]
  rfl

/-- `undo` answers none exactly without a cursor or at the oldest entry (R164). -/
theorem State.Inv.undo_none_iff {s : State} (hs : s.Inv) : undo s = (none, s) ↔ s.cur = none ∨ s.cur = some 0 := by
  rw [undo_none]
  refine or_congr_right (or_iff_left ?_)
  rintro ⟨c, hc, hnone⟩
  have hlt := hs.cursor_lt hc
  have hle := List.getElem?_eq_none_iff.1 hnone
  omega

/-- `redo` answers none exactly without a cursor or at the tail (R165). -/
theorem State.Inv.redo_none_iff {s : State} (hs : s.Inv) :
    redo s = (none, s) ↔ s.cur = none ∨ s.cur = some (s.hist.length - 1) := by
  rw [redo_none]
  refine or_congr_right ⟨?_, fun hc => ⟨_, hc, ?_⟩⟩
  · rintro ⟨c, hc, hnone⟩
    have hlt := hs.cursor_lt hc
    have hle := List.getElem?_eq_none_iff.1 hnone
    rw [hc, Option.some_inj]
    omega
  · exact List.getElem?_eq_none_iff.2 (by omega)

/-- Settles O55: the snapshot at the cursor is the engine's state, so moving back to it restores that
state. -/
theorem redoUndoesUndo : Obligations.RedoUndoesUndo := by
  intro s hs
  refine ⟨fun e t h => ?_, fun e t h => ?_, hs.undo_none_iff, hs.redo_none_iff⟩
  · obtain ⟨c, hc, -, rfl⟩ := undo_some.1 h
    exact redo_some.2 ⟨c, rfl, hs.cursor_here (c + 1) hc, restore_cursor_back hc e c⟩
  · obtain ⟨c, hc, -, rfl⟩ := redo_some.1 h
    exact undo_some.2 ⟨c, rfl, hs.cursor_here c hc, restore_cursor_back hc e (c + 1)⟩

/-! ## The search for an instruction's start -/

theorem startsInstruction_iff {i : Nat} {e : Snapshot} :
    startsInstruction i e = true ↔ e.instructionIndex = i ∧ e.microStep = .phase .fetch := by
  simp [startsInstruction]

section
variable {hist : List Snapshot} {i n : Nat}

/-- The search passes over an entry that does not start the instruction. -/
theorem lastStart_succ_of_not_start (h : ∀ d, hist[n]? = some d → ¬ startsInstruction i d = true) :
    lastStart hist i (n + 1) = lastStart hist i n := by
  rw [lastStart]
  split
  case h_1 => rfl
  case h_2 d hd => exact if_neg (h d hd)

/-- The search finds nothing where no entry starts the instruction (R166). -/
theorem lastStart_eq_none (h : ∀ k d, k < n → hist[k]? = some d → ¬ startsInstruction i d = true) :
    lastStart hist i n = none := by
  induction n with
  | zero => rfl
  | succ n ih =>
    rw [lastStart_succ_of_not_start fun d => h n d n.lt_succ_self]
    exact ih fun k d hk => h k d (Nat.lt_succ_of_lt hk)

/-- The search finds the greatest index whose entry starts the instruction: R166's `max(J)`. -/
theorem lastStart_eq_some {j : Nat} {e : Snapshot} (hj : j < n) (he : hist[j]? = some e)
    (hstart : startsInstruction i e = true)
    (hlast : ∀ k d, j < k → k < n → hist[k]? = some d → ¬ startsInstruction i d = true) :
    lastStart hist i n = some j := by
  induction n with
  | zero => exact absurd hj (Nat.not_lt_zero j)
  | succ n ih =>
    obtain hjn | rfl := Nat.lt_succ_iff_lt_or_eq.1 hj
    · rw [lastStart_succ_of_not_start fun d => hlast n d hjn n.lt_succ_self]
      exact ih hjn fun k d hk hkn => hlast k d hk (Nat.lt_succ_of_lt hkn)
    · simp only [lastStart, he, hstart, if_true]

end

/-- Settles O56: the search goes down from the cursor, and what it finds becomes the cursor. -/
theorem undoToInstructionStartFindsLatest : Obligations.UndoToInstructionStartFindsLatest := by
  intro i s
  refine ⟨fun hcur => by simp only [undoToInstructionStart, hcur], fun c hcur => ⟨?_, ?_⟩⟩
  · intro j e hj he hindex hfetch hlast
    have hfound : lastStart s.hist i (c + 1) = some j :=
      lastStart_eq_some (Nat.lt_succ_of_le hj) he (startsInstruction_iff.2 ⟨hindex, hfetch⟩)
        fun k d hk hkc hd hstart => hlast k d hk (Nat.le_of_lt_succ hkc) hd (startsInstruction_iff.1 hstart)
    simp only [undoToInstructionStart, hcur, hfound]
    exact moveCursor_some.2 ⟨he, rfl⟩
  · intro hno
    have hnone : lastStart s.hist i (c + 1) = none :=
      lastStart_eq_none fun k d hkc hd hstart =>
        hno k d (Nat.le_of_lt_succ hkc) hd (startsInstruction_iff.1 hstart)
    simp only [undoToInstructionStart, hcur, hnone]

end Sys2Proof.Machine
end

