-- ==== Sys2Proof/Proofs/CommandInvariant.lean ====
section
/-! PROOF. Every command of the host keeps the invariant of the core (45_history_debug.md R167, R168, R170;
70_reset_and_hazards.md R200, R202). -/

namespace Sys2Proof.Machine

open Sys2Proof.Laws

/-! ## Steps and runs -/

/-- A chain of performed steps keeps the invariant. -/
theorem StepChain.inv {n : Nat} {s t : State} (h : StepChain n s t) (hs : s.Inv) : t.Inv := by
  induction n generalizing s with
  | zero =>
    obtain rfl : s = t := h
    exact hs
  | succ n ih =>
    obtain ⟨-, u, hstep, hrest⟩ := h
    exact ih hrest (stepKeepsInvariant s u hs hstep)

section
variable {s : State}

/-- The command `step()` goes where `step` does, or nowhere (R134). -/
theorem State.Inv.after_stepCommand (hs : s.Inv) : (stepCommand s).2.Inv := by
  rcases hanswer : stepCommand s with ⟨r, t⟩
  have heffect := stepCommand_eq hanswer
  cases r with
  | stepped => exact stepKeepsInvariant s t hs heffect.2
  | completed | fault | refused =>
    obtain ⟨-, rfl⟩ := heffect
    exact hs

/-- A continuous run is a chain of performed steps (R148). -/
theorem State.Inv.after_runUntilHalt (hs : s.Inv) (speed : Fin 5) (ticks : List Bool) :
    (runUntilHalt speed ticks s).2.Inv := by
  obtain ⟨n, hrun⟩ := runLoop_shows (rfl : runLoop true ticks s = _)
  exact hrun.steps.inv hs

/-! ## Reset and load -/

/-- Reset meets the invariant with any admitted program, whatever the engine and the ring were (R200). -/
theorem State.Inv.resetCore_withProg (hs : s.Inv) {entries : List ProgEntry}
    (hshort : entries.length < Config.progBound) (hadmissible : ∀ e ∈ entries, admissible e.word = true) :
    ({ s with prog := entries } : State).resetCore.Inv where
  engine := .of_boundary rfl wf_reset rfl rfl rfl
  prog_short := hshort
  prog_admissible := hadmissible
  histMax_pos := hs.histMax_pos
  hist_bounded := Nat.zero_le _
  hist_sound _ he := absurd he List.not_mem_nil
  cursor_none _ := rfl
  cursor_here := nofun
  bp_rising := hs.bp_rising
  bp_positive := hs.bp_positive

/-- A load that succeeds is a reset with a program of admitted words below the bound (R65, R202). -/
theorem loadWords_ok {t : State} {entries : List ProgEntry} (h : s.loadWords entries = .ok t) :
    (∀ e ∈ entries, admissible e.word = true) ∧ entries.length < Config.progBound ∧
      t = ({ s with prog := entries } : State).resetCore := by
  unfold State.loadWords at h
  split at h
  case h_1 => cases h
  case h_2 hall =>
    split at h
    case isFalse => cases h
    case isTrue hshort =>
      cases h
      exact ⟨fun e he => by simpa using List.findIdx?_eq_none_iff.1 hall e he, hshort, rfl⟩

theorem State.Inv.after_loadProgram (hs : s.Inv) {t : State} {text : SourceText} (h : s.loadProgram text = .ok t) :
    t.Inv := by
  unfold State.loadProgram at h
  split at h
  case h_1 => cases h
  case h_2 =>
    obtain ⟨hadmissible, hshort, rfl⟩ := loadWords_ok h
    exact hs.resetCore_withProg hshort hadmissible

/-! ## Breakpoints -/

/-- Toggling keeps the breakpoints a strictly rising list of positive lines (R168). -/
theorem State.Inv.after_toggleBreakpoint (hs : s.Inv) (line : Nat) : (s.toggleBreakpoint line).Inv := by
  obtain rfl | hline := Nat.eq_zero_or_pos line
  · rwa [toggleBreakpoint_zero]
  · rw [toggleBreakpoint_of_pos s hline]
    refine { hs with bp_rising := pairwise_toggleLine line hs.bp_rising, bp_positive := fun l hl => ?_ }
    rw [mem_toggleLine hs.bp_rising] at hl
    split at hl
    case isTrue heq => exact heq ▸ hline
    case isFalse => exact hs.bp_positive l hl

/-! ## Moving the cursor -/

/-- Restoring a snapshot of the ring with the cursor moved to it keeps the invariant (R167). -/
theorem State.Inv.restore_entry (hs : s.Inv) {c : Nat} {e : Snapshot} (he : s.hist[c]? = some e) :
    ({ s.restore e with cur := some c } : State).Inv :=
  { hs with
    engine := (hs.hist_sound e (List.mem_of_getElem? he)).1
    cursor_none := nofun
    cursor_here := fun d hd => by
      cases hd
      exact he }

theorem State.Inv.after_moveCursor (hs : s.Inv) (c : Nat) : (moveCursor s c).2.Inv := by
  rcases hmove : moveCursor s c with ⟨_ | e, t⟩
  · obtain ⟨-, rfl⟩ := moveCursor_none.1 hmove
    exact hs
  · obtain ⟨he, rfl⟩ := moveCursor_some.1 hmove
    exact hs.restore_entry he

/-- `undo` moves the cursor or changes nothing (R164). -/
theorem State.Inv.after_undo (hs : s.Inv) : (undo s).2.Inv := by
  unfold undo
  split
  case h_1 | h_2 => exact hs
  case h_3 c _ => exact hs.after_moveCursor c

/-- `redo` moves the cursor or changes nothing (R165). -/
theorem State.Inv.after_redo (hs : s.Inv) : (redo s).2.Inv := by
  unfold redo
  split
  case h_1 => exact hs
  case h_2 c _ => exact hs.after_moveCursor (c + 1)

/-- `undoToInstructionStart` moves the cursor or changes nothing (R166). -/
theorem State.Inv.after_undoToInstructionStart (hs : s.Inv) (i : Nat) : (undoToInstructionStart i s).2.Inv := by
  unfold undoToInstructionStart
  split
  case h_1 => exact hs
  case h_2 =>
    split
    case h_1 => exact hs
    case h_2 j _ => exact hs.after_moveCursor j

end

/-! ## Serving -/

/-- Settles O51: a step or a run is a chain of steps, a load or a reset gives the reset state, a toggle
keeps the breakpoint list canonical, and a history command restores an entry of the ring. -/
theorem commandsKeepInvariant : Obligations.CommandsKeepInvariant := by
  intro c s hs
  cases c with
  | loadProgram text =>
    rw [serve]
    split
    case h_1 hload => exact hs.after_loadProgram hload
    case h_2 => exact hs
  | reset => exact hs.resetCore_withProg hs.prog_short hs.prog_admissible
  | step => exact hs.after_stepCommand
  | runUntilHalt speed ticks => exact hs.after_runUntilHalt speed ticks
  | toggleBreakpoint line => exact hs.after_toggleBreakpoint line
  | undo => exact hs.after_undo
  | redo => exact hs.after_redo
  | undoToInstructionStart i => exact hs.after_undoToInstructionStart i

end Sys2Proof.Machine
end

