-- ==== Sys2Proof/Proofs/FaultSources.lean ====
section
/-! PROOF. Where the two faults come from: the Memory phase of LDUR and STUR, and the UpdatePC phase
(60_exceptions.md R180, R182, R183, R188). -/

namespace Sys2Proof.Machine

open Sys2Proof.Laws

section
variable {i : Instr} {s : State} {f : Fault}

/-! ## The Memory phase -/

/-- `f` is the fault of a doubleword access at the latched address, which is refused (R112, R182). -/
def LatchedAccessFault (s : State) (f : Fault) : Prop :=
  ∃ a, f = .memoryAccessError a ∧ s.aluResult = some a ∧ badDoubleword s.params.alignCheck a

theorem loadPhase_fault_iff : loadPhase s = .fault f ↔ LatchedAccessFault s f := by
  simp only [loadPhase_fault, memRead_error, LatchedAccessFault, badDoubleword_iff_accessFaults, and_left_comm]

theorem storePhase_fault_iff {rt : Reg} : storePhase rt s = .fault f ↔ LatchedAccessFault s f := by
  simp only [storePhase_fault, memWrite_error, LatchedAccessFault, badDoubleword_iff_accessFaults, and_left_comm]

/-- The Memory phase of LDUR and STUR faults where the access is refused, that of the other kinds never. -/
theorem memoryPhaseOf_fault_iff :
    memoryPhaseOf i s = .fault f ↔ (i.kind = .ldur ∨ i.kind = .stur) ∧ LatchedAccessFault s f := by
  cases i with
  | ldur => exact loadPhase_fault_iff.trans (and_iff_right (.inl rfl)).symm
  | stur => exact storePhase_fault_iff.trans (and_iff_right (.inr rfl)).symm
  | _ => exact iff_of_false nofun fun ⟨hkind, _⟩ => hkind.elim nofun nofun

/-! ## Every phase -/

/-- Only the Memory and the UpdatePC phase fault (R182, R183). -/
theorem exec_fault_microStep (h : exec i s = .fault f) :
    s.microStep = .phase .execute ∨ s.microStep = .phase .writeBack := by
  rw [exec_eq_performPhase] at h
  rcases hm : s.microStep with _ | _ | _ | _ | _ | _ | _ <;> simp only [hm] at h
  case idle | phase.updatePC | phase.fetch => cases h
  case phase.decode => cases i <;> cases h
  case phase.execute => exact .inl rfl
  case phase.memory =>
    cases i with
    | stur | b | cbz | cbnz => cases h
    | _ => exact absurd h (writeBackPhase_ne_fault _ _ _ _)
  case phase.writeBack => exact .inr rfl

theorem exec_memory_fault_iff (hm : s.microStep = .phase .execute) :
    exec i s = .fault f ↔ (i.kind = .ldur ∨ i.kind = .stur) ∧ LatchedAccessFault s f := by
  rw [exec_eq_performPhase_of_next i (congrArg MicroStep.next hm)]
  exact memoryPhaseOf_fault_iff

theorem exec_updatePC_fault_iff (hm : s.microStep = .phase .writeBack) :
    exec i s = .fault f ↔ badTarget (nextPC i s) ∧ f = .invalidPCError (nextPC i s) := by
  rw [exec_eq_updatePCPhase hm, updatePCPhase_fault, validTarget_eq_false_iff_badTarget]
  rfl

end

/-- Settles O36: only two phases fault, and each of them exactly under its condition. -/
theorem faultSources : Obligations.FaultSources := by
  intro i s f
  constructor
  · intro h
    obtain hm | hm := exec_fault_microStep h
    · obtain ⟨hkind, a, hf, ha, hbad⟩ := (exec_memory_fault_iff hm).1 h
      exact .inl ⟨a, hf, hkind, hm, ha, hbad⟩
    · obtain ⟨hbad, hf⟩ := (exec_updatePC_fault_iff hm).1 h
      exact .inr ⟨hf, hm, hbad⟩
  · rintro (⟨a, hf, hkind, hm, ha, hbad⟩ | ⟨hf, hm, hbad⟩)
    · exact (exec_memory_fault_iff hm).2 ⟨hkind, a, hf, ha, hbad⟩
    · exact (exec_updatePC_fault_iff hm).2 ⟨hbad, hf⟩

end Sys2Proof.Machine
end

