-- ==== Sys2Proof/Proofs/Assembly.lean ====
section
/-! PROOF. What the assembler puts out: encodings of instructions whose immediates are in range, at source
lines that rise (30_encoding.md R70 to R77). -/

namespace Sys2Proof.Machine

/-- A sequence of two parses succeeds exactly if both do. -/
theorem except_bind_eq_ok {ε α β : Type} {x : Except ε α} {f : α → Except ε β} {b : β} :
    (x >>= f) = .ok b ↔ ∃ a, x = .ok a ∧ f a = .ok b := by
  cases x with
  | error e => exact iff_of_false nofun nofun
  | ok a =>
    constructor
    · exact fun h => ⟨a, rfl, h⟩
    · rintro ⟨_, ⟨⟩, h⟩
      exact h

/-! ## The operands of a line -/

section
variable {t : SourceText} {i : Instr}

/-- An immediate token that is accepted fits its field (R75, R76). -/
theorem fitsSigned_of_parseField {n : Nat} {scale v : Int} (h : parseField n scale t = .ok v) :
    fitsSigned n v = true := by
  unfold parseField at h
  split at h
  case h_1 => cases h
  case h_2 =>
    split at h
    case isFalse => cases h
    case isTrue hfits =>
      cases h
      exact hfits

theorem parseR_ok {mk : Reg → Reg → Reg → Instr} (h : parseR mk t = .ok i) : ∃ rd rn rm, i = mk rd rn rm := by
  unfold parseR at h
  split at h
  case h_1 =>
    simp only [except_bind_eq_ok] at h
    obtain ⟨rd, -, rn, -, rm, -, ⟨⟩⟩ := h
    exact ⟨rd, rn, rm, rfl⟩
  case h_2 => cases h

theorem parseI_ok {mk : Reg → Reg → Int → Instr} (h : parseI mk t = .ok i) :
    ∃ rd rn imm, fitsSigned 12 imm = true ∧ i = mk rd rn imm := by
  unfold parseI at h
  split at h
  case h_1 =>
    simp only [except_bind_eq_ok] at h
    obtain ⟨rd, -, rn, -, imm, himm, ⟨⟩⟩ := h
    exact ⟨rd, rn, imm, fitsSigned_of_parseField himm, rfl⟩
  case h_2 => cases h

theorem parseD_ok {mk : Reg → Reg → Int → Instr} (h : parseD mk t = .ok i) :
    ∃ rt rn imm, fitsSigned 9 imm = true ∧ i = mk rt rn imm := by
  simp only [parseD] at h
  split at h
  case isTrue => cases h
  case isFalse =>
    split at h
    case h_1 =>
      simp only [except_bind_eq_ok] at h
      obtain ⟨rt, -, rn, -, imm, himm, ⟨⟩⟩ := h
      exact ⟨rt, rn, imm, fitsSigned_of_parseField himm, rfl⟩
    case h_2 => cases h

theorem parseB_ok (h : parseB t = .ok i) : ∃ offset, fitsSigned 26 offset = true ∧ i = .b offset := by
  unfold parseB at h
  split at h
  case h_1 =>
    obtain ⟨offset, hoffset, ⟨⟩⟩ := except_bind_eq_ok.1 h
    exact ⟨offset, fitsSigned_of_parseField hoffset, rfl⟩
  case h_2 => cases h

theorem parseCB_ok {mk : Reg → Int → Instr} (h : parseCB mk t = .ok i) :
    ∃ rt count, fitsSigned 19 count = true ∧ i = mk rt count := by
  unfold parseCB at h
  split at h
  case h_1 =>
    simp only [except_bind_eq_ok] at h
    obtain ⟨rt, -, count, hcount, ⟨⟩⟩ := h
    exact ⟨rt, count, fitsSigned_of_parseField hcount, rfl⟩
  case h_2 => cases h

/-- Every accepted instruction has its immediate in the range of its field (R75). -/
theorem wellFormed_of_parseOperands {k : Kind} (h : parseOperands k t = .ok i) : i.wellFormed = true := by
  cases k with
  | add | sub | and | orr =>
    obtain ⟨_, _, _, rfl⟩ := parseR_ok h
    rfl
  | addi | subi =>
    obtain ⟨_, _, _, himm, rfl⟩ := parseI_ok h
    exact himm
  | ldur | stur =>
    obtain ⟨_, _, _, himm, rfl⟩ := parseD_ok h
    exact himm
  | b =>
    obtain ⟨_, hoffset, rfl⟩ := parseB_ok h
    exact hoffset
  | cbz | cbnz =>
    obtain ⟨_, _, hcount, rfl⟩ := parseCB_ok h
    exact hcount

theorem wellFormed_of_parseLine (h : parseLine t = .ok (some i)) : i.wellFormed = true := by
  simp only [parseLine] at h
  split at h
  case isTrue => cases h
  case isFalse =>
    split at h
    case h_1 => cases h
    case h_2 =>
      split at h
      case h_1 => cases h
      case h_2 hoperands =>
        cases h
        exact wellFormed_of_parseOperands hoperands

end

/-! ## The lines of a text -/

/-- A first line that is blank gives no entry, and any other gives the encoding of its instruction at
its own line number (R70). -/
theorem assembleLines_cons_ok {n : Nat} {raw : SourceText} {rest : List SourceText} {entries : List ProgEntry}
    (h : assembleLines n (raw :: rest) = .ok entries) :
    (parseLine raw = .ok none ∧ assembleLines (n + 1) rest = .ok entries) ∨
      ∃ i tail, parseLine raw = .ok (some i) ∧ assembleLines (n + 1) rest = .ok tail ∧
        entries = { word := encode i, line := n } :: tail := by
  rw [assembleLines] at h
  split at h
  case h_1 => cases h
  case h_2 hblank => exact .inl ⟨hblank, h⟩
  case h_3 i hline =>
    split at h
    case h_1 => cases h
    case h_2 tail htail =>
      cases h
      exact .inr ⟨i, tail, hline, htail, rfl⟩

/-- Every assembled word decodes: it is the encoding of a well-formed instruction. -/
theorem decode_of_assembleLines {lines : List SourceText} {n : Nat} {entries : List ProgEntry}
    (h : assembleLines n lines = .ok entries) : ∀ e ∈ entries, ∃ i, decode e.word = .ok i := by
  induction lines generalizing n entries with
  | nil =>
    cases h
    exact nofun
  | cons raw rest ih =>
    obtain ⟨-, hrest⟩ | ⟨i, tail, hline, htail, rfl⟩ := assembleLines_cons_ok h
    · exact ih hrest
    · have hdecode := (decodeInvertsEncode.1 i (wellFormed_of_parseLine hline)).2
      exact List.forall_mem_cons.2 ⟨⟨i, hdecode⟩, ih htail⟩

/-- The source lines rise strictly from the number before the first line. -/
theorem pairwise_line_of_assembleLines {lines : List SourceText} {n : Nat} {entries : List ProgEntry}
    (h : assembleLines (n + 1) lines = .ok entries) : (n :: entries.map ProgEntry.line).Pairwise (· < ·) := by
  induction lines generalizing n entries with
  | nil =>
    cases h
    exact List.pairwise_singleton _ n
  | cons raw rest ih =>
    have rises {l : List Nat} (hl : ((n + 1) :: l).Pairwise (· < ·)) : (n :: (n + 1) :: l).Pairwise (· < ·) :=
      List.pairwise_cons_cons_iff_of_trans.2 ⟨Nat.lt_succ_self n, hl⟩
    obtain ⟨-, hrest⟩ | ⟨i, tail, -, htail, rfl⟩ := assembleLines_cons_ok h
    · exact (rises (ih hrest)).sublist ((List.sublist_cons_self _ _).cons_cons n)
    · exact rises (ih htail)

end Sys2Proof.Machine
end

