-- ==== Sys2Proof/Proofs/ResetAndLoad.lean ====
section
/-! PROOF. The commands reset and loadProgram (70_reset_and_hazards.md R200 to R203). -/

namespace Sys2Proof.Machine

open Sys2Proof.Laws

/-! ## Reset -/

@[simp] theorem resetCore_readReg (s : State) (r : Reg) : s.resetCore.readReg r = 0#64 := by
  by_cases hr : r.val < 31 <;> simp [State.readReg, hr]

/-- Settles O57: every field of the reset state is a value of the model's reset, or kept. -/
theorem resetValues : Obligations.ResetValues := by
  rintro s t rfl
  exact ⟨resetCore_readReg s, fun _ => rfl, rfl, rfl, rfl, rfl, rfl, rfl, rfl, rfl, rfl, rfl, rfl, rfl, rfl⟩

/-! ## Load -/

/-- A program below the bound whose words all decode is loaded by a reset (R65, R202). -/
theorem loadWords_of_decode {s : State} {entries : List ProgEntry} (hshort : entries.length < Config.progBound)
    (hdecode : ∀ e ∈ entries, ∃ i, decode e.word = .ok i) :
    s.loadWords entries = .ok { s.resetCore with prog := entries } := by
  have hadmissible : entries.findIdx? (fun e => !admissible e.word) = none := by
    refine List.findIdx?_eq_none_iff.2 fun e he => ?_
    obtain ⟨i, hi⟩ := hdecode e he
    simp [admissible, hi]
  rw [State.loadWords, hadmissible]
  exact if_pos hshort

/-- Settles O58: every assembled word decodes, so a load of fewer than 2^62 of them is admitted. -/
theorem loadProgramOutcome : Obligations.LoadProgramOutcome := by
  intro text s
  refine ⟨fun entries h hshort => ?_, fun err h => ?_⟩
  · have hdecode := decode_of_assembleLines h
    obtain ⟨hpositive, hrising⟩ := List.pairwise_cons.1 (pairwise_line_of_assembleLines h)
    refine ⟨?_, hrising, fun e he => ⟨hpositive e.line (List.mem_map_of_mem he), hdecode e he⟩⟩
    simp only [serve, State.loadProgram, h, loadWords_of_decode hshort hdecode]
  · simp only [serve, State.loadProgram, h]

end Sys2Proof.Machine
end
